-- ==== Sys2Proof/Word.lean ====
section
/-! DEFINITION. The widths of the machine's values (R9, R10 of 00_scope.md: everything is unsigned, bit 0 is the least significant). -/

namespace Sys2Proof

/-- A byte: a general register, a timer, a memory cell (R7). -/
abbrev Byte := BitVec 8

/-- A 16-bit value: `I`, `pc`, a stack slot, an instruction word (R7). -/
abbrev Word := BitVec 16

/-- A 4-bit field of an instruction word (R71). -/
abbrev Nibble := BitVec 4

/-- The 12-bit address field `nnn` (R71). -/
abbrev Addr := BitVec 12

/-- A register number, the value of a 4-bit field, so always in range (R20). -/
abbrev Reg := Fin 16

/-- A key number 0x0 to 0xF (R150). -/
abbrev Key := Fin 16

end Sys2Proof
end

