-- ==== Sys2Proof/Syntax.lean ====
section
/-! DEFINITION. The 34 instructions (R76 of 30_encoding.md), one constructor per row of spec/opcode_table.json, in the table's order. -/

namespace Sys2Proof

/-- An instruction with the operands of its row. The digits that R77 says are ignored (the `x` of `CLS` and `RET`, the
`n` of the register skips) are kept as data, so that an instruction says its whole word: a fault records that word
(R187). DEDUCED (log 10). -/
inductive Instr where
  /-- `CLS`, 0?E0 (R141); `x` is the ignored digit. -/
  | cls (x : Nibble)
  /-- `RET`, 0?EE (R101); `x` is the ignored digit. -/
  | ret (x : Nibble)
  /-- `JP nnn`, 1NNN (R102). -/
  | jp (nnn : Addr)
  /-- `CALL nnn`, 2NNN (R103). -/
  | call (nnn : Addr)
  /-- `SE Vx, nn`, 3XNN (R105). -/
  | seImm (x : Reg) (nn : Byte)
  /-- `SNE Vx, nn`, 4XNN (R106). -/
  | sneImm (x : Reg) (nn : Byte)
  /-- `SE Vx, Vy`, 5XY? (R107); `n` is the ignored digit. -/
  | seReg (x y : Reg) (n : Nibble)
  /-- `LD Vx, nn`, 6XNN (R121). -/
  | ldImm (x : Reg) (nn : Byte)
  /-- `ADD Vx, nn`, 7XNN (R122). -/
  | addImm (x : Reg) (nn : Byte)
  /-- `LD Vx, Vy`, 8XY0 (R123). -/
  | ldReg (x y : Reg)
  /-- `OR Vx, Vy`, 8XY1 (R124). -/
  | orReg (x y : Reg)
  /-- `AND Vx, Vy`, 8XY2 (R125). -/
  | andReg (x y : Reg)
  /-- `XOR Vx, Vy`, 8XY3 (R126). -/
  | xorReg (x y : Reg)
  /-- `ADD Vx, Vy`, 8XY4 (R127). -/
  | addReg (x y : Reg)
  /-- `SUB Vx, Vy`, 8XY5 (R128). -/
  | subReg (x y : Reg)
  /-- `SHR Vx, Vy`, 8XY6 (R129). -/
  | shrReg (x y : Reg)
  /-- `SUBN Vx, Vy`, 8XY7 (R130). -/
  | subnReg (x y : Reg)
  /-- `SHL Vx, Vy`, 8XYE (R131). -/
  | shlReg (x y : Reg)
  /-- `SNE Vx, Vy`, 9XY? (R108); `n` is the ignored digit. -/
  | sneReg (x y : Reg) (n : Nibble)
  /-- `LD I, nnn`, ANNN (R161). -/
  | ldI (nnn : Addr)
  /-- `JP V0, nnn`, BNNN (R104); the row gives both `nnn` and `x = nnn[11:8]`. -/
  | jpV0 (nnn : Addr) (x : Reg)
  /-- `RND Vx, nn`, CXNN (R135). -/
  | rnd (x : Reg) (nn : Byte)
  /-- `DRW Vx, Vy, n`, DXYN (R142). -/
  | drw (x y : Reg) (n : Nibble)
  /-- `SKP Vx`, EX9E (R151). -/
  | skp (x : Reg)
  /-- `SKNP Vx`, EXA1 (R152). -/
  | sknp (x : Reg)
  /-- `LD Vx, DT`, FX07 (R162). -/
  | ldVxDt (x : Reg)
  /-- `LD Vx, K`, FX0A (R153). -/
  | ldVxK (x : Reg)
  /-- `LD DT, Vx`, FX15 (R163). -/
  | ldDtVx (x : Reg)
  /-- `LD ST, Vx`, FX18 (R164). -/
  | ldStVx (x : Reg)
  /-- `ADD I, Vx`, FX1E (R165). -/
  | addI (x : Reg)
  /-- `LD F, Vx`, FX29 (R166). -/
  | ldF (x : Reg)
  /-- `LD B, Vx`, FX33 (R167). -/
  | ldB (x : Reg)
  /-- `LD [I], Vx`, FX55 (R168). -/
  | storeRegs (x : Reg)
  /-- `LD Vx, [I]`, FX65 (R169). -/
  | loadRegs (x : Reg)
  deriving DecidableEq, Repr

end Sys2Proof
end

