-- ==== Sys2Proof/Decode.lean ====
section
/-! DEFINITION. The decoder and dispatch (R70 to R78 of 30_encoding.md), total and rejecting by name; the encoder; the
opcode table as rows of match and mask (R82). -/

namespace Sys2Proof

/-- The field record of R71, extracted from every word. -/
structure Fields where
  opcodeClass : Nibble
  x : Reg
  y : Reg
  n : Nibble
  nn : Byte
  nnn : Addr
  word : Word
  deriving DecidableEq, Repr

/-- Field extraction is fixed by bit position and cannot fail (R71, R73). -/
def decodeFields (w : Word) : Fields where
  opcodeClass := w.extractLsb' 12 4
  x := (w.extractLsb' 8 4).toFin
  y := (w.extractLsb' 4 4).toFin
  n := w.extractLsb' 0 4
  nn := w.extractLsb' 0 8
  nnn := w.extractLsb' 0 12
  word := w

/-- Why bytes give no instruction. -/
inductive Reject where
  /-- The key of the word has no handler (R75, R78); the step raises `UnknownInstruction` (R182). -/
  | unknownInstruction (word : Word)
  /-- Fewer than the two bytes of a word. The machine's fetch always has two (R93), so no step meets this. -/
  | truncated
  deriving DecidableEq, Repr

/-- Class 0x0, keyed by `nn` (R75, R76). -/
def dispatchClass0 (d : Fields) : Except Reject Instr :=
  match d.nn with
  | 0xE0#8 => .ok (.cls (BitVec.ofFin d.x))
  | 0xEE#8 => .ok (.ret (BitVec.ofFin d.x))
  | _ => .error (.unknownInstruction d.word)

/-- Class 0x8, keyed by `n` (R75, R76). -/
def dispatchClass8 (d : Fields) : Except Reject Instr :=
  match d.n with
  | 0x0#4 => .ok (.ldReg d.x d.y)
  | 0x1#4 => .ok (.orReg d.x d.y)
  | 0x2#4 => .ok (.andReg d.x d.y)
  | 0x3#4 => .ok (.xorReg d.x d.y)
  | 0x4#4 => .ok (.addReg d.x d.y)
  | 0x5#4 => .ok (.subReg d.x d.y)
  | 0x6#4 => .ok (.shrReg d.x d.y)
  | 0x7#4 => .ok (.subnReg d.x d.y)
  | 0xE#4 => .ok (.shlReg d.x d.y)
  | _ => .error (.unknownInstruction d.word)

/-- Class 0xE, keyed by `nn` (R75, R76, R154). -/
def dispatchClassE (d : Fields) : Except Reject Instr :=
  match d.nn with
  | 0x9E#8 => .ok (.skp d.x)
  | 0xA1#8 => .ok (.sknp d.x)
  | _ => .error (.unknownInstruction d.word)

/-- Class 0xF, keyed by `nn` (R75, R76, R170). -/
def dispatchClassF (d : Fields) : Except Reject Instr :=
  match d.nn with
  | 0x07#8 => .ok (.ldVxDt d.x)
  | 0x0A#8 => .ok (.ldVxK d.x)
  | 0x15#8 => .ok (.ldDtVx d.x)
  | 0x18#8 => .ok (.ldStVx d.x)
  | 0x1E#8 => .ok (.addI d.x)
  | 0x29#8 => .ok (.ldF d.x)
  | 0x33#8 => .ok (.ldB d.x)
  | 0x55#8 => .ok (.storeRegs d.x)
  | 0x65#8 => .ok (.loadRegs d.x)
  | _ => .error (.unknownInstruction d.word)

/-- The handler of a decoded word, looked up by its key; digits outside the key and the operands are ignored (R75, R77). -/
def dispatchFields (d : Fields) : Except Reject Instr :=
  match d.opcodeClass with
  | 0x0#4 => dispatchClass0 d
  | 0x1#4 => .ok (.jp d.nnn)
  | 0x2#4 => .ok (.call d.nnn)
  | 0x3#4 => .ok (.seImm d.x d.nn)
  | 0x4#4 => .ok (.sneImm d.x d.nn)
  | 0x5#4 => .ok (.seReg d.x d.y d.n)
  | 0x6#4 => .ok (.ldImm d.x d.nn)
  | 0x7#4 => .ok (.addImm d.x d.nn)
  | 0x8#4 => dispatchClass8 d
  | 0x9#4 => .ok (.sneReg d.x d.y d.n)
  | 0xA#4 => .ok (.ldI d.nnn)
  | 0xB#4 => .ok (.jpV0 d.nnn d.x)
  | 0xC#4 => .ok (.rnd d.x d.nn)
  | 0xD#4 => .ok (.drw d.x d.y d.n)
  | 0xE#4 => dispatchClassE d
  | _ => dispatchClassF d

/-- The instruction a 16-bit word stands for (R70, R75). -/
def decodeWord (w : Word) : Except Reject Instr :=
  dispatchFields (decodeFields w)

/-- The word of two bytes, the one at the lower address high (R57, R70). -/
def wordOfBytes (hi lo : Byte) : Word := hi ++ lo

/-- The byte at the lower address (R57). -/
def highByte (w : Word) : Byte := w.extractLsb' 8 8

/-- The byte at the higher address (R57). -/
def lowByte (w : Word) : Byte := w.extractLsb' 0 8

/-- Decoding from a byte sequence, with what is left of it. -/
def decode : List Byte → Except Reject (Instr × List Byte)
  | hi :: lo :: rest =>
    match decodeWord (wordOfBytes hi lo) with
    | .ok i => .ok (i, rest)
    | .error e => .error e
  | [_] => .error .truncated
  | [] => .error .truncated

/-- The 4-bit field that holds a register number (R71). -/
def regField (r : Reg) : Nibble := BitVec.ofFin r

/-- Format `A`: `c N N N` (R72). -/
def formatA (c : Nibble) (nnn : Addr) : Word := c ++ nnn

/-- Formats `XI`, `XK` and `Z`: `c X N N`, the low byte an operand or the sub-key (R72). -/
def formatXI (c x : Nibble) (nn : Byte) : Word := (c ++ x) ++ nn

/-- Format `XY`: `c X Y N`, the last digit an operand, the sub-key or ignored (R72). -/
def formatXY (c x y n : Nibble) : Word := ((c ++ x) ++ y) ++ n

/-- The word of an instruction, from the patterns of R76. The offset jump's `x` is part of its `nnn` and has no bits
of its own. -/
def encode : Instr → Word
  | .cls x => formatXI 0x0#4 x 0xE0#8
  | .ret x => formatXI 0x0#4 x 0xEE#8
  | .jp nnn => formatA 0x1#4 nnn
  | .call nnn => formatA 0x2#4 nnn
  | .seImm x nn => formatXI 0x3#4 (regField x) nn
  | .sneImm x nn => formatXI 0x4#4 (regField x) nn
  | .seReg x y n => formatXY 0x5#4 (regField x) (regField y) n
  | .ldImm x nn => formatXI 0x6#4 (regField x) nn
  | .addImm x nn => formatXI 0x7#4 (regField x) nn
  | .ldReg x y => formatXY 0x8#4 (regField x) (regField y) 0x0#4
  | .orReg x y => formatXY 0x8#4 (regField x) (regField y) 0x1#4
  | .andReg x y => formatXY 0x8#4 (regField x) (regField y) 0x2#4
  | .xorReg x y => formatXY 0x8#4 (regField x) (regField y) 0x3#4
  | .addReg x y => formatXY 0x8#4 (regField x) (regField y) 0x4#4
  | .subReg x y => formatXY 0x8#4 (regField x) (regField y) 0x5#4
  | .shrReg x y => formatXY 0x8#4 (regField x) (regField y) 0x6#4
  | .subnReg x y => formatXY 0x8#4 (regField x) (regField y) 0x7#4
  | .shlReg x y => formatXY 0x8#4 (regField x) (regField y) 0xE#4
  | .sneReg x y n => formatXY 0x9#4 (regField x) (regField y) n
  | .ldI nnn => formatA 0xA#4 nnn
  | .jpV0 nnn _ => formatA 0xB#4 nnn
  | .rnd x nn => formatXI 0xC#4 (regField x) nn
  | .drw x y n => formatXY 0xD#4 (regField x) (regField y) n
  | .skp x => formatXI 0xE#4 (regField x) 0x9E#8
  | .sknp x => formatXI 0xE#4 (regField x) 0xA1#8
  | .ldVxDt x => formatXI 0xF#4 (regField x) 0x07#8
  | .ldVxK x => formatXI 0xF#4 (regField x) 0x0A#8
  | .ldDtVx x => formatXI 0xF#4 (regField x) 0x15#8
  | .ldStVx x => formatXI 0xF#4 (regField x) 0x18#8
  | .addI x => formatXI 0xF#4 (regField x) 0x1E#8
  | .ldF x => formatXI 0xF#4 (regField x) 0x29#8
  | .ldB x => formatXI 0xF#4 (regField x) 0x33#8
  | .storeRegs x => formatXI 0xF#4 (regField x) 0x55#8
  | .loadRegs x => formatXI 0xF#4 (regField x) 0x65#8

/-- The two bytes of an instruction, as memory holds them (R57). -/
def encodeBytes (i : Instr) : List Byte := [highByte (encode i), lowByte (encode i)]

/-- A word as the host numbers its bits: every bit from `nbits` up is 0, and an instruction has 16 (R70). -/
def tableWord (nbits w : Nat) : Word := BitVec.ofNat 16 (w % 2 ^ nbits)

/-- What the decoder reads from the table's word, laid out in memory order. -/
def decodeTableWord (nbits w : Nat) : Option Instr :=
  match decode [highByte (tableWord nbits w), lowByte (tableWord nbits w)] with
  | .ok (i, _) => some i
  | .error _ => none

/-- A row of the opcode table: a word `w` is in it when `w & mask == match` (R82). -/
structure OpcodeRow where
  pattern : Word
  mask : Word
  deriving DecidableEq, Repr

/-- `w & mask == match` (R82). -/
def OpcodeRow.covers (row : OpcodeRow) (w : Word) : Bool := w &&& row.mask == row.pattern

/-- The row of an instruction, as spec/opcode_table.json has it (R82). -/
def Instr.row : Instr → OpcodeRow
  | .cls _ => ⟨0x00E0, 0xF0FF⟩
  | .ret _ => ⟨0x00EE, 0xF0FF⟩
  | .jp _ => ⟨0x1000, 0xF000⟩
  | .call _ => ⟨0x2000, 0xF000⟩
  | .seImm _ _ => ⟨0x3000, 0xF000⟩
  | .sneImm _ _ => ⟨0x4000, 0xF000⟩
  | .seReg _ _ _ => ⟨0x5000, 0xF000⟩
  | .ldImm _ _ => ⟨0x6000, 0xF000⟩
  | .addImm _ _ => ⟨0x7000, 0xF000⟩
  | .ldReg _ _ => ⟨0x8000, 0xF00F⟩
  | .orReg _ _ => ⟨0x8001, 0xF00F⟩
  | .andReg _ _ => ⟨0x8002, 0xF00F⟩
  | .xorReg _ _ => ⟨0x8003, 0xF00F⟩
  | .addReg _ _ => ⟨0x8004, 0xF00F⟩
  | .subReg _ _ => ⟨0x8005, 0xF00F⟩
  | .shrReg _ _ => ⟨0x8006, 0xF00F⟩
  | .subnReg _ _ => ⟨0x8007, 0xF00F⟩
  | .shlReg _ _ => ⟨0x800E, 0xF00F⟩
  | .sneReg _ _ _ => ⟨0x9000, 0xF000⟩
  | .ldI _ => ⟨0xA000, 0xF000⟩
  | .jpV0 _ _ => ⟨0xB000, 0xF000⟩
  | .rnd _ _ => ⟨0xC000, 0xF000⟩
  | .drw _ _ _ => ⟨0xD000, 0xF000⟩
  | .skp _ => ⟨0xE09E, 0xF0FF⟩
  | .sknp _ => ⟨0xE0A1, 0xF0FF⟩
  | .ldVxDt _ => ⟨0xF007, 0xF0FF⟩
  | .ldVxK _ => ⟨0xF00A, 0xF0FF⟩
  | .ldDtVx _ => ⟨0xF015, 0xF0FF⟩
  | .ldStVx _ => ⟨0xF018, 0xF0FF⟩
  | .addI _ => ⟨0xF01E, 0xF0FF⟩
  | .ldF _ => ⟨0xF029, 0xF0FF⟩
  | .ldB _ => ⟨0xF033, 0xF0FF⟩
  | .storeRegs _ => ⟨0xF055, 0xF0FF⟩
  | .loadRegs _ => ⟨0xF065, 0xF0FF⟩

/-- The 34 rows of spec/opcode_table.json in its order, for the claim that they are disjoint (R82). -/
def opcodeTable : List OpcodeRow :=
  [⟨0x00E0, 0xF0FF⟩, ⟨0x00EE, 0xF0FF⟩, ⟨0x1000, 0xF000⟩, ⟨0x2000, 0xF000⟩, ⟨0x3000, 0xF000⟩, ⟨0x4000, 0xF000⟩,
   ⟨0x5000, 0xF000⟩, ⟨0x6000, 0xF000⟩, ⟨0x7000, 0xF000⟩] ++
  [⟨0x8000, 0xF00F⟩, ⟨0x8001, 0xF00F⟩, ⟨0x8002, 0xF00F⟩, ⟨0x8003, 0xF00F⟩, ⟨0x8004, 0xF00F⟩, ⟨0x8005, 0xF00F⟩,
   ⟨0x8006, 0xF00F⟩, ⟨0x8007, 0xF00F⟩, ⟨0x800E, 0xF00F⟩] ++
  [⟨0x9000, 0xF000⟩, ⟨0xA000, 0xF000⟩, ⟨0xB000, 0xF000⟩, ⟨0xC000, 0xF000⟩, ⟨0xD000, 0xF000⟩] ++
  [⟨0xE09E, 0xF0FF⟩, ⟨0xE0A1, 0xF0FF⟩, ⟨0xF007, 0xF0FF⟩, ⟨0xF00A, 0xF0FF⟩, ⟨0xF015, 0xF0FF⟩, ⟨0xF018, 0xF0FF⟩,
   ⟨0xF01E, 0xF0FF⟩, ⟨0xF029, 0xF0FF⟩, ⟨0xF033, 0xF0FF⟩, ⟨0xF055, 0xF0FF⟩, ⟨0xF065, 0xF0FF⟩]

end Sys2Proof
end

