-- ==== Sys2Proof/Config.lean ====
section
/-! DEFINITION. What the spec leaves to the platform (R8 of 00_scope.md): the quirk strap, the instruction rate, the font, and the free input values. -/

namespace Sys2Proof

/-- The two interpretations the strap selects between (R29). -/
inductive QuirkMode where
  | legacy
  | modern
  deriving DecidableEq, Repr, Inhabited

namespace Config

/-- The level of the `quirk_mode` strap at reset: OPEN in the spec (R8, D4). DESIGN CHOICE (log 3): it has no body,
so nothing can be proved of which mode it is. -/
opaque quirkStrap : QuirkMode

/-- INSTRUCTION_RATE minus 60: OPEN in the spec but for "integer, at least 60" (R8, D5). DESIGN CHOICE (log 4): no body. -/
opaque rateOver60 : Nat

/-- The `key_pressed` port at the `n`-th step with no scheduled input: a free input (R8, R62, D21). DESIGN CHOICE (log 1): no body. -/
opaque freeKeyPressed : Nat → BitVec 16

/-- The `key_just_released` port at the `n`-th step with no scheduled input: a free input (R8, R62, D21). DESIGN CHOICE (log 1): no body. -/
opaque freeKeyReleased : Nat → BitVec 16

/-- The `rnd` port at the `n`-th step with no scheduled input: a free draw (R8, R135, D18). DESIGN CHOICE (log 1): no body. -/
opaque freeRnd : Nat → Byte

/-- The lowest INSTRUCTION_RATE the spec admits (R8). -/
abbrev minRate : Nat := 60

/-- Logical timer ticks per second (R7). -/
abbrev ticksPerSecond : Nat := 60

/-- The address of the font table (R7, R53). -/
abbrev fontBase : Nat := 0x050

/-- The bytes of one glyph (R7). -/
abbrev glyphBytes : Nat := 5

/-- The parameter FONT (R8, R54): 80 bytes, glyphs 0 to F in order, row 0 first. -/
abbrev Font := Vector Byte 80

/-- The default value of FONT, the table of R54. PRESUMED (log 5): the spec itself marks these bytes as general
knowledge. The machine takes any `Font`; only `State.reset` uses this one. -/
def font : Font :=
  #v[0xF0, 0x90, 0x90, 0x90, 0xF0,  0x20, 0x60, 0x20, 0x20, 0x70,
    0xF0, 0x10, 0xF0, 0x80, 0xF0,  0xF0, 0x10, 0xF0, 0x10, 0xF0,
    0x90, 0x90, 0xF0, 0x10, 0x10,  0xF0, 0x80, 0xF0, 0x10, 0xF0,
    0xF0, 0x80, 0xF0, 0x90, 0xF0,  0xF0, 0x10, 0x20, 0x40, 0x40,
    0xF0, 0x90, 0xF0, 0x90, 0xF0,  0xF0, 0x90, 0xF0, 0x10, 0xF0,
    0xF0, 0x90, 0xF0, 0x90, 0x90,  0xE0, 0x90, 0xE0, 0x90, 0xE0,
    0xF0, 0x80, 0x80, 0x80, 0xF0,  0xE0, 0x90, 0x90, 0x90, 0xE0,
    0xF0, 0x80, 0xF0, 0x80, 0xF0,  0xF0, 0x80, 0xF0, 0x80, 0x80]

/-- The program load address and reset program counter (R7). -/
abbrev loadBase : Nat := 0x200

/-- The last address the loader may write (R7, R212). -/
abbrev loadLast : Nat := 0xE8F

/-- The last memory address (R7). -/
abbrev memLast : Nat := 0xFFF

end Config
end Sys2Proof
end

