-- ==== Sys2Proof/Machine/State.lean ====
section
/-! DEFINITION. The whole state of the block (10_state.md), the reasons the model can stop, and the state after reset (R38). -/

namespace Sys2Proof.Machine

/-- Engine status (R31). -/
inductive Status where
  /-- The next step fetches and executes an instruction. -/
  | run
  /-- Inside the second phase of `LD Vx, K`. -/
  | waitRelease
  /-- A fault has been raised. -/
  | halted
  deriving DecidableEq, Repr

/-- The fault causes (R181). -/
inductive FaultCause where
  /-- Code 0: no fault recorded. -/
  | none
  /-- Code 1, raised by dispatch (R182). -/
  | unknownInstruction
  /-- Code 2, raised by `CALL` (R183). -/
  | stackOverflow
  /-- Code 3, raised by `RET` (R184). -/
  | stackUnderflow
  /-- Code 4, raised by `SKP` and `SKNP` (R185). -/
  | keyIndexOutOfRange
  /-- Code 5, raised at the start of a step (R186). -/
  | badProgramCounter
  /-- Code 6, raised by `DRW`, `LD B, Vx`, `LD [I], Vx`, `LD Vx, [I]` (R188). -/
  | addressOutOfRange
  deriving DecidableEq, Repr

/-- The fault record (R34). -/
structure FaultRecord where
  cause : FaultCause
  info : Word
  addr : Word
  word : Word
  deriving DecidableEq, Repr

/-- What the outside drives on the input ports for one step (R37, R62): `stepEn` is `step_en`, bit `k` of `keyPressed`
is `KEYP[k]`, bit `k` of `keyReleased` is `KEYR[k]`, `rnd` is the random byte. DESIGN CHOICE (log 1, log 2). -/
structure InputSample where
  stepEn : Bool
  keyPressed : BitVec 16
  keyReleased : BitVec 16
  rnd : Byte
  deriving DecidableEq, Repr

/-- `DISP` (R27): element `r` is row `r`, and bit `c` of it is the pixel in column `c`. DESIGN CHOICE (log 15): the
order of the bits inside a row is the model's and nothing reads a row whole. -/
abbrev Display := Vector (BitVec 64) 32

/-- `MEM` (R28): the parameter FONT that fixes its reset content (R8, R38, R53, log 5, log 6), and the cells that differ
from that content, in the canonical form `Memory.wf`. No step changes `font`. -/
structure Memory where
  font : Config.Font
  cells : List Host.Cell
  deriving DecidableEq, Repr

/-- The state of the block (R20 to R34), and the model's own fields for its inputs and its parameter. -/
structure State where
  /-- `V[0..15]` (R20). -/
  v : Vector Byte 16
  /-- `I` (R22). -/
  index : Word
  /-- `pc` (R23). -/
  pc : Word
  /-- `STK[0..15]` (R24). -/
  stack : Vector Word 16
  /-- `SP`, 0 to 16 (R24). -/
  sp : Fin 17
  /-- `DT` (R25). -/
  dt : Byte
  /-- `ST` (R26). -/
  st : Byte
  /-- `DISP` (R27). -/
  display : Display
  /-- `MEM` (R28). -/
  mem : Memory
  /-- `QUIRK_MODE` (R29). -/
  quirkMode : QuirkMode
  /-- `STATUS` (R31). -/
  status : Status
  /-- `KW_KEY` (R32). -/
  kwKey : Key
  /-- `KW_X` (R32). -/
  kwX : Reg
  /-- `TICKCNT` (R33). -/
  tickcnt : Nat
  /-- `FAULT` (R34). -/
  fault : FaultRecord
  /-- The parameter INSTRUCTION_RATE minus 60 (R8); no step changes it. DESIGN CHOICE (log 4): a rate below 60, which
  the spec excludes, cannot be written. -/
  rateOver60 : Nat
  /-- The input samples the outside has scheduled, one a step, oldest first. DESIGN CHOICE (log 1). -/
  inputs : List InputSample
  /-- Numbers the free input values used when nothing is scheduled; the model's own. DESIGN CHOICE (log 1, log 9). -/
  inputSeq : Nat
  deriving DecidableEq, Repr

/-- Why a machine stops with the host's `fault`. The block's own faults are not here: the spec describes their entry,
so raising one is a next state (R187, log 12), and no step answers `fault`. -/
inductive Fault where
  /-- Answered by `boot` alone: the program exceeds the writable region, "process aborts before execution begins"
  (R180 (a), R205, R212). Safe: the engine never steps. -/
  | imageTooLong
  deriving DecidableEq, Repr

/-- Why the model gives no meaning. No step answers a refusal once every arm of `exec` has its meaning. -/
inductive Refusal where
  /-- Answered by an arm of `exec` that has no meaning yet. Safe: nothing follows from it. -/
  | notModelled (mnemonic : String)
  /-- Answered by `boot` alone: INSTRUCTION_RATE must be at least 60 (R196, U16 of 93_implementation_defined.md). Safe:
  the machine is not built. -/
  | instructionRateBelow60
  deriving DecidableEq, Repr

/-- What a meaning or a step answers. -/
abbrev Result := Host.Outcome State Fault Refusal

/-- The state after reset (R38, R211), the argument form: the strap, the rate and FONT are parameters (R8). The stack slots'
0 is the model's (DESIGN CHOICE, log 8), and so are the empty `inputs` and the 0 of `inputSeq` (log 9). -/
def State.resetWith (strap : QuirkMode) (rateOver60 : Nat) (font : Config.Font) : State where
  v := Vector.replicate 16 0
  index := 0
  pc := 0x200
  stack := Vector.replicate 16 0
  sp := 0
  dt := 0
  st := 0
  display := Vector.replicate 32 0
  mem := ⟨font, []⟩
  quirkMode := strap
  status := .run
  kwKey := 0
  kwX := 0
  tickcnt := 0
  fault := ⟨.none, 0, 0, 0⟩
  rateOver60 := rateOver60
  inputs := []
  inputSeq := 0

/-- The machine right after reset, the strap and the rate left open (log 3, log 4), FONT at its default (log 5). -/
def State.reset : State := State.resetWith Config.quirkStrap Config.rateOver60 Config.font

end Sys2Proof.Machine
end

