-- ==== Sys2Proof/Machine/Ops.lean ====
section
/-! DEFINITION. The operations every meaning is built from: memory (20_memory.md), registers, the program counter, the
call stack, the display and the input ports (10_state.md), raising a fault (R187), the timer unit (R196, R197). -/

namespace Sys2Proof.Machine

/-! Memory -/

/-- What an address reads as before anything is written: FONT at 0x050..0x09F, zero elsewhere (R38, R53). -/
def resetByte (font : Config.Font) (a : Nat) : Byte :=
  if h : Config.fontBase ≤ a ∧ a - Config.fontBase < 80 then font[a - Config.fontBase]'h.2 else 0

/-- The byte of the first cell listed for `a`, else `b`. -/
def findCell (b : Byte) : List Host.Cell → Nat → Byte
  | [], _ => b
  | (k, c) :: rest, a => if k = a then c else findCell b rest a

/-- What address `a` of `m` reads as when it is not listed. -/
def Memory.background (m : Memory) (a : Nat) : Byte := resetByte m.font a

/-- The byte at address `a` (R51). -/
def Memory.read (m : Memory) (a : Nat) : Byte := findCell (m.background a) m.cells a

/-- Store one byte (R52), keeping the canonical form: the cells below `a`, the cell of `a` unless it holds what `a`
reads as unlisted, the cells above. -/
def Memory.write (m : Memory) (a : Nat) (b : Byte) : Memory :=
  { m with
    cells := m.cells.filter (fun c => c.1 < a) ++
      ((if b = m.background a then [] else [(a, b)]) ++ m.cells.filter (fun c => a < c.1)) }

/-- The canonical form: addresses strictly rising, all in the address space (R53), no cell equal to what it would read
as unlisted. -/
abbrev Memory.wf (m : Memory) : Prop :=
  m.cells.Pairwise (fun c d => c.1 < d.1) ∧ ∀ c ∈ m.cells, c.1 ≤ Config.memLast ∧ c.2 ≠ m.background c.1

/-- The bytes at `a`, `a + 1`, ..., `a + n - 1` (R51). -/
def Memory.readBytes (m : Memory) (a : Nat) : Nat → List Byte
  | 0 => []
  | n + 1 => Memory.read m a :: Memory.readBytes m (a + 1) n

/-- Store bytes at `a`, `a + 1`, ... in this order (R52). -/
def Memory.writeBytes (m : Memory) (a : Nat) : List Byte → Memory
  | [] => m
  | b :: bs => Memory.writeBytes (Memory.write m a b) (a + 1) bs

/-- The range check of R51 and R52: the last of `n` bytes from `a` is at most 0xFFF; no byte, no check (R142). -/
def inMemory (a n : Nat) : Bool := n == 0 || a + n - 1 ≤ Config.memLast

/-- `MemRead(addr, n)` (R51); `none` stands for raising `AddressOutOfRange(addr)`. -/
def State.memRead (s : State) (a n : Nat) : Option (List Byte) :=
  if inMemory a n then some (s.mem.readBytes a n) else none

/-- `MemWrite(addr, n, v)` (R52); `none` stands for raising `AddressOutOfRange(addr)`, and then nothing is written. -/
def State.memWrite (s : State) (a : Nat) (bytes : List Byte) : Option State :=
  if inMemory a bytes.length then some { s with mem := s.mem.writeBytes a bytes } else none

/-! Registers -/

/-- Register 15, the flag register (R21). -/
def vf : Reg := 15

/-- `V[x]` (R20). -/
def State.reg (s : State) (x : Reg) : Byte := s.v.get x

/-- `V[x] <- b` (R20). -/
def State.setReg (s : State) (x : Reg) (b : Byte) : State := { s with v := s.v.set x.val b x.isLt }

/-- `V[k], V[k+1], ... <- bytes`, no further than V[15] (R169). -/
def State.setRegsFrom (s : State) (k : Nat) : List Byte → State
  | [] => s
  | b :: bs => State.setRegsFrom (if h : k < 16 then s.setReg ⟨k, h⟩ b else s) (k + 1) bs

/-- `V[0], ..., V[x]`, the lowest first (R168). -/
def State.regsUpTo (s : State) (x : Reg) : List Byte := s.v.toList.take (x.val + 1)

/-- `I <- w` (R22). -/
def State.setIndex (s : State) (w : Word) : State := { s with index := w }

/-- `DT <- b` (R25). -/
def State.setDt (s : State) (b : Byte) : State := { s with dt := b }

/-- `ST <- b` (R26). -/
def State.setSt (s : State) (b : Byte) : State := { s with st := b }

/-! The program counter -/

/-- `pc <- w`, with no check (R13). -/
def State.setPc (s : State) (w : Word) : State := { s with pc := w }

/-- `pc <- (pc + 2) mod 65536` when `c` holds (R13, `skip`). -/
def State.skipIf (s : State) (c : Bool) : State := s.setPc (if c then s.pc + 2 else s.pc)

/-- Inside a handler the instruction's own address is `pc - 2` (R14). -/
def State.ownAddress (s : State) : Word := s.pc - 2

/-! Faults -/

/-- `raise F(info)` (R187): the record is written and the engine halts; `pc` and everything else stay. There is no
return from it (R191): only reset leaves the halted state. -/
def State.raise (s : State) (cause : FaultCause) (info addr word : Word) : State :=
  { s with fault := ⟨cause, info, addr, word⟩, status := .halted }

/-- A raise inside the handler of `i`: the address is the instruction's own, the word its own (R187). -/
def State.raiseIn (s : State) (i : Instr) (cause : FaultCause) (info : Word) : State :=
  s.raise cause info s.ownAddress (encode i)

/-- The cause codes (R181). -/
def FaultCause.code : FaultCause → BitVec 3
  | .none => 0
  | .unknownInstruction => 1
  | .stackOverflow => 2
  | .stackUnderflow => 3
  | .keyIndexOutOfRange => 4
  | .badProgramCounter => 5
  | .addressOutOfRange => 6

/-! The call stack -/

/-- `push(v)` (R24); `none` stands for raising `StackOverflow(v)`. -/
def State.push (s : State) (w : Word) : Option State :=
  if h : s.sp.val < 16 then
    some { s with stack := s.stack.set s.sp.val w h, sp := ⟨s.sp.val + 1, by omega⟩ }
  else none

/-- `pop()` (R24): the newest entry and the state without it; `none` stands for raising `StackUnderflow()`. -/
def State.pop (s : State) : Option (Word × State) :=
  if h : 0 < s.sp.val then
    some (s.stack.get ⟨s.sp.val - 1, by omega⟩, { s with sp := ⟨s.sp.val - 1, by omega⟩ })
  else none

/-! The display -/

/-- `DISP[r][c]` (R27). -/
def Display.pixel (d : Display) (r : Fin 32) (c : Nat) : Bool := (d.get r).getLsbD c

/-- The clear display (R141). -/
def Display.clear : Display := Vector.replicate 32 0

/-- `DISP <- d` (R27). -/
def State.setDisplay (s : State) (d : Display) : State := { s with display := d }

/-- The pixels of one sprite byte drawn from column `cx`: column `cx + k` for bit `7 - k`; columns past 63 are clipped
(R142, R144). -/
def spriteLine (b : Byte) (cx : Nat) : BitVec 64 := b.reverse.setWidth 64 <<< cx

/-- Draw sprite bytes on rows `r`, `r + 1`, ... from column `cx` by XOR; rows past 31 are clipped; says whether a pixel
went from 1 to 0 (R142). Row by row: no row is drawn twice in one instruction (DEDUCED, log 17). -/
def drawRows (cx : Nat) : Nat → List Byte → Display → Display × Bool
  | _, [], d => (d, false)
  | r, b :: bs, d =>
    if h : r < 32 then
      let line := spriteLine b cx
      let rest := drawRows cx (r + 1) bs (d.set r (d[r] ^^^ line))
      (rest.1, (d[r] &&& line) != 0 || rest.2)
    else drawRows cx (r + 1) bs d

/-! The input ports -/

/-- What the ports show in this step: the oldest scheduled sample, or free values with a step requested (R8, R62, R90;
log 1, log 2). -/
def State.input (s : State) : InputSample :=
  match s.inputs with
  | i :: _ => i
  | [] =>
    { stepEn := true
      keyPressed := Config.freeKeyPressed s.inputSeq
      keyReleased := Config.freeKeyReleased s.inputSeq
      rnd := Config.freeRnd s.inputSeq }

/-- The sample of this step is gone, whether the step read it or not (log 1). -/
def State.consumeInput (s : State) : State :=
  { s with inputs := s.inputs.tail, inputSeq := s.inputSeq + 1 }

/-- `KEYP[k]` in this step's sample (R30). -/
def State.keyPressed (s : State) (k : Key) : Bool := s.input.keyPressed.getLsbD k.val

/-- `KEYR[k]` in this step's sample (R30). -/
def State.keyReleased (s : State) (k : Key) : Bool := s.input.keyReleased.getLsbD k.val

/-- The lowest-numbered pressed key of this step's sample (R153). -/
def State.lowestPressed (s : State) : Option Key := (List.finRange 16).find? (fun k => s.keyPressed k)

/-- The key wait has seen key `k` pressed: latch it and the destination, and wait for its release (R153). -/
def State.latchKey (s : State) (k : Key) (x : Reg) : State :=
  { s with kwKey := k, kwX := x, status := .waitRelease }

/-! The timer unit -/

/-- INSTRUCTION_RATE (R8). -/
def State.instructionRate (s : State) : Nat := s.rateOver60 + Config.minRate

/-- TICK_DIV (R8, R196). -/
def State.tickDiv (s : State) : Nat := s.instructionRate / Config.ticksPerSecond

/-- A timer goes down by one and stops at 0 (R197). -/
def timerDown (t : Byte) : Byte := if 0 < t.toNat then t - 1 else t

/-- `tick()` (R197): both timers at the same tick. -/
def State.tick (s : State) : State := { s with dt := timerDown s.dt, st := timerDown s.st }

/-- `timer_hook()` (R196). -/
def State.timerHook (s : State) : State :=
  if s.tickDiv ≤ s.tickcnt + 1 then State.tick { s with tickcnt := 0 } else { s with tickcnt := s.tickcnt + 1 }

end Sys2Proof.Machine
end

