-- ==== Sys2Proof/Machine/Operands.lean ====
section
/-! DEFINITION. Every operand form (R74 of 30_encoding.md): immediates, registers, and the operands the quirk mode or a
range check chooses. -/

namespace Sys2Proof.Machine

/-- `nnn` zero-extended to 16 bits (R74). -/
def addrOperand (nnn : Addr) : Word := nnn.setWidth 16

/-- A register value zero-extended to 16 bits (R104, R165, R181). -/
def byteToWord (b : Byte) : Word := b.setWidth 16

/-- The operand of a shift: `V[y]` in legacy mode, `V[x]` in modern mode (R129, R131). -/
def State.shiftOperand (s : State) (x y : Reg) : Byte :=
  match s.quirkMode with
  | .legacy => s.reg y
  | .modern => s.reg x

/-- The offset of the offset jump: `V[0]` in legacy mode, `V[x]` in modern mode (R104). -/
def State.jumpOffset (s : State) (x : Reg) : Byte :=
  match s.quirkMode with
  | .legacy => s.reg 0
  | .modern => s.reg x

/-- The key a register names; the whole byte counts, and above 15 there is none (R151). -/
def keyOperand (b : Byte) : Option Key := if h : b.toNat < 16 then some ⟨b.toNat, h⟩ else none

/-- The column a sprite starts in (R142). -/
def drawColumn (b : Byte) : Nat := b.toNat % 64

/-- The row a sprite starts in (R142). -/
def drawRow (b : Byte) : Nat := b.toNat % 32

/-- The address of the glyph of a value's low nibble (R166). -/
def glyphAddress (b : Byte) : Word := BitVec.ofNat 16 (Config.fontBase + Config.glyphBytes * (b.toNat % 16))

/-- The hundreds, tens and ones digits of a value (R167). -/
def decimalDigits (b : Byte) : List Byte :=
  [BitVec.ofNat 8 (b.toNat / 100), BitVec.ofNat 8 (b.toNat / 10 % 10), BitVec.ofNat 8 (b.toNat % 10)]

/-- `I` after a bulk transfer of `V[0]..V[x]`: advanced by `x + 1` in legacy mode, unchanged in modern mode (R168, R169). -/
def State.indexAfterBulk (s : State) (x : Reg) : Word :=
  match s.quirkMode with
  | .legacy => s.index + BitVec.ofNat 16 (x.val + 1)
  | .modern => s.index

end Sys2Proof.Machine
end

