-- ==== Sys2Proof/Machine/Flags.lean ====
section
/-! DEFINITION. Every result with its flag (42_alu.md, R165 of 45_timer_index_memory.md): computed exactly on natural
numbers and narrowed at the end (R11), the flag always the whole byte 0x00 or 0x01 (R21). -/

namespace Sys2Proof.Machine

/-- A flag as the byte VF receives (R21). -/
def flagByte (c : Bool) : Byte := if c then 1 else 0

/-- `V[x] + V[y]`: sum modulo 256, carry (R127). -/
def addFlag (a b : Byte) : Byte × Bool := (BitVec.ofNat 8 (a.toNat + b.toNat), 255 < a.toNat + b.toNat)

/-- `a - b`: difference modulo 256; the flag is 1 when `a > b`, strictly (R128, R120). `SUBN` is the same with its
operands exchanged (R130). -/
def subFlag (a b : Byte) : Byte × Bool := (BitVec.ofNat 8 (a.toNat + 256 - b.toNat), b.toNat < a.toNat)

/-- Shift right by one; the flag is the bit shifted out (R129). -/
def shrFlag (a : Byte) : Byte × Bool := (BitVec.ofNat 8 (a.toNat / 2), a.getLsbD 0)

/-- Shift left by one; the flag is the bit shifted out (R131). -/
def shlFlag (a : Byte) : Byte × Bool := (BitVec.ofNat 8 (a.toNat * 2), a.getLsbD 7)

/-- `I + V[x]`: sum modulo 65536; the flag is 1 when the true sum exceeds 0xFFF (R165). -/
def indexFlag (i : Word) (b : Byte) : Word × Bool :=
  (BitVec.ofNat 16 (i.toNat + b.toNat), Config.memLast < i.toNat + b.toNat)

/-- `V[x] <- result`, then, last, `VF <- flag` (R132). -/
def State.setResultFlag (s : State) (x : Reg) (r : Byte × Bool) : State := (s.setReg x r.1).setReg vf (flagByte r.2)

/-- `V[x] <- r`, then `VF <- 0` in legacy mode only (R124, R132). -/
def State.setLogicResult (s : State) (x : Reg) (r : Byte) : State :=
  match s.quirkMode with
  | .legacy => (s.setReg x r).setReg vf 0
  | .modern => s.setReg x r

end Sys2Proof.Machine
end

