-- ==== Sys2Proof/Machine/Cycle.lean ====
section
/-! DEFINITION. The engine cycle (40_engine_cycle.md): the pc check, fetch, advance, dispatch of illegal words, the
timer hook, the key wait's second phase, and the step over them. -/

namespace Sys2Proof.Machine

/-- `check_pc` passes: an even address 0x200 to 0xFFE (R92). -/
def pcLegal (a : Word) : Bool := !a.getLsbD 0 && Config.loadBase ≤ a.toNat && a.toNat ≤ Config.memLast

/-- The bytes at the program counter, as memory is at this moment (R93). -/
def State.fetchBytes (s : State) : List Byte := s.mem.readBytes s.pc.toNat 2

/-- The word at the program counter, big-endian (R93, R57). -/
def State.fetchWord (s : State) : Word :=
  wordOfBytes (s.mem.read s.pc.toNat) (s.mem.read (s.pc.toNat + 1))

/-- `pc <- a + 2`, before decode (R93). -/
def State.advance (s : State) : State := s.setPc (s.pc + 2)

/-- The pc check failed: nothing is fetched, the record holds the offending value twice and word 0 (R92, R186, R187). -/
def State.raiseBadPc (s : State) : State := s.raise .badProgramCounter s.pc s.pc 0

/-- Dispatch found no handler, after the advance: information and word are the fetched word (R94, R182, R187). -/
def State.raiseUnknown (s : State) (w : Word) : State := s.raise .unknownInstruction w s.ownAddress w

/-- After the handler: the timer hook runs when the instruction counts as executed. It does not in a faulting step
(HALTED) nor in the step that enters WAIT_RELEASE; every other step leaves the engine in RUN (R91, R95, R199;
DEDUCED, log 11). -/
def State.retire (s : State) : State :=
  match s.status with
  | .run => s.timerHook
  | .waitRelease => s
  | .halted => s

/-- The WAIT_RELEASE step (R96): on the release of the latched key, write the register, go on, and count once. -/
def State.pollRelease (s : State) : State :=
  if s.keyReleased s.kwKey then
    State.timerHook { s.setReg s.kwX (BitVec.ofNat 8 s.kwKey.val) with status := .run }
  else s

/-- Apply `f` to a next state; a stop stays. -/
def mapNext (f : State → State) : Result → Result
  | .next t => .next (f t)
  | .fault r => .fault r
  | .refused r => .refused r

/-- The step in RUN (R91), over the meaning of instructions: check, fetch, advance, decode, execute, count. -/
def runStepWith (meaning : Instr → State → Result) (s : State) : Result :=
  if pcLegal s.pc then
    match decodeWord s.fetchWord with
    | .ok i => mapNext State.retire (meaning i s.advance)
    | .error _ => .next (s.advance.raiseUnknown s.fetchWord)
  else .next s.raiseBadPc

/-- One requested step, chosen by STATUS (R90, R91, R96, R97). -/
def requestedStepWith (meaning : Instr → State → Result) (s : State) : Result :=
  match s.status with
  | .run => runStepWith meaning s
  | .waitRelease => .next s.pollRelease
  | .halted => .next s

/-- The step source's move: with no request nothing in the block changes (R90). The input sample of the step is gone
in every case (log 1). -/
def stepWith (meaning : Instr → State → Result) (s : State) : Result :=
  if s.input.stepEn then mapNext State.consumeInput (requestedStepWith meaning s) else .next s.consumeInput

/-- Where the next instruction is fetched: at `pc`, or at the load address when `pc` is no legal fetch address. -/
def State.fetchAddress (s : State) : Word := if pcLegal s.pc then s.pc else 0x200

/-- The scheduled inputs with a step requested now. -/
def requestNow : List InputSample → List InputSample
  | [] => []
  | i :: rest => { i with stepEn := true } :: rest

/-- `s` made to run the word `w` in its next step: the two bytes at the fetch address, the engine in RUN, a step
requested. In the state after reset only memory changes (log 13). -/
def State.placeWord (s : State) (w : Word) : State :=
  { s with
    pc := s.fetchAddress
    mem := s.mem.writeBytes s.fetchAddress.toNat [highByte w, lowByte w]
    status := .run
    inputs := requestNow s.inputs }

end Sys2Proof.Machine
end

