-- ==== Sys2Proof/Machine/Alu.lean ====
section
/-! DEFINITION. Register loads, arithmetic and logic, random (42_alu.md). Operands are read first, then the result is
written, then, last, VF (R132). -/

namespace Sys2Proof.Machine

/-- `LD Vx, nn` (R121). -/
def execLdImm (x : Reg) (nn : Byte) (s : State) : Result := .next (s.setReg x nn)

/-- `ADD Vx, nn` (R122): no flag. -/
def execAddImm (x : Reg) (nn : Byte) (s : State) : Result := .next (s.setReg x (addFlag (s.reg x) nn).1)

/-- `LD Vx, Vy` (R123). -/
def execLdReg (x y : Reg) (s : State) : Result := .next (s.setReg x (s.reg y))

/-- `OR Vx, Vy` (R124). -/
def execOrReg (x y : Reg) (s : State) : Result := .next (s.setLogicResult x (s.reg x ||| s.reg y))

/-- `AND Vx, Vy` (R125). -/
def execAndReg (x y : Reg) (s : State) : Result := .next (s.setLogicResult x (s.reg x &&& s.reg y))

/-- `XOR Vx, Vy` (R126). -/
def execXorReg (x y : Reg) (s : State) : Result := .next (s.setLogicResult x (s.reg x ^^^ s.reg y))

/-- `ADD Vx, Vy` (R127). -/
def execAddReg (x y : Reg) (s : State) : Result := .next (s.setResultFlag x (addFlag (s.reg x) (s.reg y)))

/-- `SUB Vx, Vy` (R128). -/
def execSubReg (x y : Reg) (s : State) : Result := .next (s.setResultFlag x (subFlag (s.reg x) (s.reg y)))

/-- `SHR Vx, Vy` (R129). -/
def execShrReg (x y : Reg) (s : State) : Result := .next (s.setResultFlag x (shrFlag (s.shiftOperand x y)))

/-- `SUBN Vx, Vy` (R130). -/
def execSubnReg (x y : Reg) (s : State) : Result := .next (s.setResultFlag x (subFlag (s.reg y) (s.reg x)))

/-- `SHL Vx, Vy` (R131). -/
def execShlReg (x y : Reg) (s : State) : Result := .next (s.setResultFlag x (shlFlag (s.shiftOperand x y)))

/-- `RND Vx, nn` (R135): this step's random byte under the mask. -/
def execRnd (x : Reg) (nn : Byte) (s : State) : Result := .next (s.setReg x (s.input.rnd &&& nn))

end Sys2Proof.Machine
end

