-- ==== Sys2Proof/Machine/Draw.lean ====
section
/-! DEFINITION. The display instructions (43_draw.md). -/

namespace Sys2Proof.Machine

/-- `CLS` (R141); the digit `x` is ignored (R77). -/
def execCls (_x : Nibble) (s : State) : Result := .next (s.setDisplay Display.clear)

/-- `DRW Vx, Vy, n` (R142): all `n` bytes are checked before anything changes; VF last (R132). -/
def execDrw (x y : Reg) (n : Nibble) (s : State) : Result :=
  match s.memRead s.index.toNat n.toNat with
  | none => .next (s.raiseIn (.drw x y n) .addressOutOfRange s.index)
  | some sprite =>
    .next ((s.setDisplay (drawRows (drawColumn (s.reg x)) (drawRow (s.reg y)) sprite s.display).1).setReg vf
      (flagByte (drawRows (drawColumn (s.reg x)) (drawRow (s.reg y)) sprite s.display).2))

end Sys2Proof.Machine
end

