-- ==== Sys2Proof/Machine/Flow.lean ====
section
/-! DEFINITION. Control transfer (41_flow.md). When a meaning runs, `pc` is already the instruction's own address plus 2
(R14), and no target is checked (R109). -/

namespace Sys2Proof.Machine

/-- `RET` (R101). -/
def execRet (x : Nibble) (s : State) : Result :=
  match s.pop with
  | none => .next (s.raiseIn (.ret x) .stackUnderflow 0)
  | some (target, t) => .next (t.setPc target)

/-- `JP nnn` (R102). -/
def execJp (nnn : Addr) (s : State) : Result := .next (s.setPc (addrOperand nnn))

/-- `CALL nnn` (R103): pushes the advanced `pc`. -/
def execCall (nnn : Addr) (s : State) : Result :=
  match s.push s.pc with
  | none => .next (s.raiseIn (.call nnn) .stackOverflow s.pc)
  | some t => .next (t.setPc (addrOperand nnn))

/-- `JP V0, nnn` (R104): the sum is not masked to 12 bits. -/
def execJpV0 (nnn : Addr) (x : Reg) (s : State) : Result :=
  .next (s.setPc (addrOperand nnn + byteToWord (s.jumpOffset x)))

/-- `SE Vx, nn` (R105). -/
def execSeImm (x : Reg) (nn : Byte) (s : State) : Result := .next (s.skipIf (s.reg x == nn))

/-- `SNE Vx, nn` (R106). -/
def execSneImm (x : Reg) (nn : Byte) (s : State) : Result := .next (s.skipIf (s.reg x != nn))

/-- `SE Vx, Vy` (R107); the digit `n` is ignored (R77). -/
def execSeReg (x y : Reg) (_n : Nibble) (s : State) : Result := .next (s.skipIf (s.reg x == s.reg y))

/-- `SNE Vx, Vy` (R108); the digit `n` is ignored (R77). -/
def execSneReg (x y : Reg) (_n : Nibble) (s : State) : Result := .next (s.skipIf (s.reg x != s.reg y))

end Sys2Proof.Machine
end

