-- ==== Sys2Proof/Machine/IndexMem.lean ====
section
/-! DEFINITION. Index register, timer access, font address, decimal store, bulk store and load (45_timer_index_memory.md). -/

namespace Sys2Proof.Machine

/-- `LD I, nnn` (R161). -/
def execLdI (nnn : Addr) (s : State) : Result := .next (s.setIndex (addrOperand nnn))

/-- `LD Vx, DT` (R162): the value before this step's tick. -/
def execLdVxDt (x : Reg) (s : State) : Result := .next (s.setReg x s.dt)

/-- `LD DT, Vx` (R163): TICKCNT is not reset. -/
def execLdDtVx (x : Reg) (s : State) : Result := .next (s.setDt (s.reg x))

/-- `LD ST, Vx` (R164). -/
def execLdStVx (x : Reg) (s : State) : Result := .next (s.setSt (s.reg x))

/-- `ADD I, Vx` (R165): `I` keeps 16 bits, VF is written in both cases, last. -/
def execAddI (x : Reg) (s : State) : Result :=
  .next ((s.setIndex (indexFlag s.index (s.reg x)).1).setReg vf (flagByte (indexFlag s.index (s.reg x)).2))

/-- `LD F, Vx` (R166). -/
def execLdF (x : Reg) (s : State) : Result := .next (s.setIndex (glyphAddress (s.reg x)))

/-- `LD B, Vx` (R167): the whole range is checked before the first byte is written; `I` is unchanged. -/
def execLdB (x : Reg) (s : State) : Result :=
  match s.memWrite s.index.toNat (decimalDigits (s.reg x)) with
  | none => .next (s.raiseIn (.ldB x) .addressOutOfRange s.index)
  | some t => .next t

/-- `LD [I], Vx` (R168). -/
def execStoreRegs (x : Reg) (s : State) : Result :=
  match s.memWrite s.index.toNat (s.regsUpTo x) with
  | none => .next (s.raiseIn (.storeRegs x) .addressOutOfRange s.index)
  | some t => .next (t.setIndex (s.indexAfterBulk x))

/-- `LD Vx, [I]` (R169). -/
def execLoadRegs (x : Reg) (s : State) : Result :=
  match s.memRead s.index.toNat (x.val + 1) with
  | none => .next (s.raiseIn (.loadRegs x) .addressOutOfRange s.index)
  | some bytes => .next ((s.setRegsFrom 0 bytes).setIndex (s.indexAfterBulk x))

end Sys2Proof.Machine
end

