-- ==== Sys2Proof/Machine/Keys.lean ====
section
/-! DEFINITION. The key instructions (44_keys.md). The second phase of `LD Vx, K` is the WAIT_RELEASE step (R96),
`State.pollRelease` in Machine/Cycle.lean. -/

namespace Sys2Proof.Machine

/-- `SKP Vx` (R151). -/
def execSkp (x : Reg) (s : State) : Result :=
  match keyOperand (s.reg x) with
  | none => .next (s.raiseIn (.skp x) .keyIndexOutOfRange (byteToWord (s.reg x)))
  | some k => .next (s.skipIf (s.keyPressed k))

/-- `SKNP Vx` (R152). -/
def execSknp (x : Reg) (s : State) : Result :=
  match keyOperand (s.reg x) with
  | none => .next (s.raiseIn (.sknp x) .keyIndexOutOfRange (byteToWord (s.reg x)))
  | some k => .next (s.skipIf (!s.keyPressed k))

/-- `LD Vx, K`, phase 1 (R153): with no key pressed, back to the instruction's own address; else latch the lowest
pressed key and wait for its release. -/
def execLdVxK (x : Reg) (s : State) : Result :=
  .next (match s.lowestPressed with
    | none => s.setPc s.ownAddress
    | some k => s.latchKey k x)

end Sys2Proof.Machine
end

