-- ==== Sys2Proof/Machine/Step.lean ====
section
/-! DEFINITION. The machine's step (R90, R91, R96, R97 of 40_engine_cycle.md): `stepWith` of Machine/Cycle.lean at `exec`. -/

namespace Sys2Proof.Machine

/-- One move of the step source: the engine's step when one is requested. -/
def step (s : State) : Host.Outcome State Fault Refusal := stepWith exec s

/-- `s` with the opcode table's word where `step` fetches its next instruction (log 13). -/
def State.withFetchWord (s : State) (nbits w : Nat) : State := s.placeWord (tableWord nbits w)

end Sys2Proof.Machine
end

