-- ==== Sys2Proof/Machine/Ports.lean ====
section
/-! DEFINITION. The ports (R37 of 10_state.md) and the moves of the outside: reset and the loader (R210 to R212 of
70_reset_and_hazards.md), the renderer's read, the outputs. -/

namespace Sys2Proof.Machine

/-- The `disp_pixel` port: `DISP[disp_row][disp_col]`, with no side effect (R37). Read between steps (log 14). -/
def State.dispPixel (s : State) (row : Fin 32) (col : Fin 64) : Bool := s.display.pixel row col.val

/-- The `st_out` port (R37, R200). -/
def State.stOut (s : State) : Byte := s.st

/-- The `halted` port (R37). -/
def State.haltedOut (s : State) : Bool := s.status == .halted

/-- The `fault_cause` port (R37, R181). -/
def State.faultCause (s : State) : BitVec 3 := s.fault.cause.code

/-- The `fault_info` port (R37). -/
def State.faultInfo (s : State) : Word := s.fault.info

/-- The `fault_addr` port (R37). -/
def State.faultAddr (s : State) : Word := s.fault.addr

/-- The `fault_word` port (R37). -/
def State.faultWord (s : State) : Word := s.fault.word

/-- The `reset` port, sampling the strap: total, nothing of the state survives but the platform's own rate and FONT
and the outside's schedule (R191, R210, R211). It lands between two steps (log 16). -/
def State.assertReset (s : State) (strap : QuirkMode) : State :=
  { State.resetWith strap s.rateOver60 s.mem.font with inputs := s.inputs, inputSeq := s.inputSeq }

/-- The loader's byte copy, for an image within the writable region (R212). -/
def loadImage (image : List Byte) (s : State) : State :=
  { s with mem := s.mem.writeBytes Config.loadBase image }

/-- The largest image: 0x200 + L - 1 is at most 0xE8F (R212). -/
def imageFits (image : List Byte) : Bool := Config.loadBase + image.length ≤ Config.loadLast + 1

/-- The reset sequence with its parameters (R8, R211): reset, the strap, FONT, the loader. An image that does not fit aborts the
process before execution begins (R205, R212); a rate below 60 is refused (R196, U16). No other move writes memory from
outside, so the loader never runs after a step (R39, R67). -/
def boot (strap : QuirkMode) (rate : Nat) (font : Config.Font) (image : List Byte) : Result :=
  if rate < Config.minRate then .refused .instructionRateBelow60
  else if imageFits image then .next (loadImage image (State.resetWith strap (rate - Config.minRate) font))
  else .fault .imageTooLong

end Sys2Proof.Machine
end

