-- ==== Sys2Proof/Safety.lean ====
section
/-! DEFINITION. The terms the claims use: which instructions touch what (the spec's own lists), legal states, what a
fault record must say, and a safe run. -/

namespace Sys2Proof.Machine

/-- A step is requested by this step's sample (R90). -/
def State.Requested (s : State) : Prop := s.input.stepEn = true

/-- A legal fetch address, in numbers: even, 0x200 to 0xFFE (R92). -/
def LegalFetch (a : Word) : Prop := a.toNat % 2 = 0 ∧ 0x200 ≤ a.toNat ∧ a.toNat ≤ 0xFFE

/-- What follows a legal fetch address, the only values `CALL` pushes: even, 0x202 to 0x1000 (R93, R101). -/
def AfterFetch (a : Word) : Prop := a.toNat % 2 = 0 ∧ 0x202 ≤ a.toNat ∧ a.toNat ≤ 0x1000

/-- Every byte of memory reads in `t` as in `s`. -/
def SameMemory (s t : State) : Prop := ∀ a, t.mem.read a = s.mem.read a

/-- Every byte of memory but the `n` bytes from `base` reads in `t` as in `s`. -/
def SameMemoryOutside (s t : State) (base n : Nat) : Prop :=
  ∀ a, a < base ∨ base + n ≤ a → t.mem.read a = s.mem.read a

/-- `t` is `s` halted by a fault: the record and STATUS are written, nothing else (R187). -/
def HaltedWith (s t : State) (cause : FaultCause) (info addr word : Word) : Prop :=
  t = { s with fault := ⟨cause, info, addr, word⟩, status := .halted }

/-- `t` is `s` but for the outside's schedule of inputs, which is not state of the block (R35). -/
def SameBlock (s t : State) : Prop := t = { s with inputs := t.inputs, inputSeq := t.inputSeq }

/-- What an instruction has to do with: the quirk mode (R18), the inputs (R50), memory and display as a destination
(R55, R27), the call stack (R24), `I` as a destination (R22), the timers (R25, R26), `pc` beyond the advance (R23), VF as
a flag in both modes (R21). -/
structure Touches where
  quirk : Bool := false
  input : Bool := false
  mem : Bool := false
  display : Bool := false
  stack : Bool := false
  index : Bool := false
  timers : Bool := false
  pc : Bool := false
  flag : Bool := false
  deriving DecidableEq, Repr

/-- The spec's lists, one row per instruction (R18, R21 to R27, R50, R55). -/
def touches : Instr → Touches
  | .cls _ => { display := true }
  | .ret _ => { stack := true, pc := true }
  | .jp _ => { pc := true }
  | .call _ => { stack := true, pc := true }
  | .seImm _ _ => { pc := true }
  | .sneImm _ _ => { pc := true }
  | .seReg _ _ _ => { pc := true }
  | .ldImm _ _ => {}
  | .addImm _ _ => {}
  | .ldReg _ _ => {}
  | .orReg _ _ => { quirk := true }
  | .andReg _ _ => { quirk := true }
  | .xorReg _ _ => { quirk := true }
  | .addReg _ _ => { flag := true }
  | .subReg _ _ => { flag := true }
  | .shrReg _ _ => { quirk := true, flag := true }
  | .subnReg _ _ => { flag := true }
  | .shlReg _ _ => { quirk := true, flag := true }
  | .sneReg _ _ _ => { pc := true }
  | .ldI _ => { index := true }
  | .jpV0 _ _ => { quirk := true, pc := true }
  | .rnd _ _ => { input := true }
  | .drw _ _ _ => { display := true, flag := true }
  | .skp _ => { input := true, pc := true }
  | .sknp _ => { input := true, pc := true }
  | .ldVxDt _ => {}
  | .ldVxK _ => { input := true, pc := true }
  | .ldDtVx _ => { timers := true }
  | .ldStVx _ => { timers := true }
  | .addI _ => { index := true, flag := true }
  | .ldF _ => { index := true }
  | .ldB _ => { mem := true }
  | .storeRegs _ => { quirk := true, mem := true, index := true }
  | .loadRegs _ => { quirk := true, index := true }

/-- The registers an instruction may write in a mode: its destination, and VF where it defines it (R21, R132). -/
def writesReg (q : QuirkMode) (r : Reg) : Instr → Bool
  | .cls _ => false
  | .ret _ => false
  | .jp _ => false
  | .call _ => false
  | .seImm _ _ => false
  | .sneImm _ _ => false
  | .seReg _ _ _ => false
  | .ldImm x _ => r == x
  | .addImm x _ => r == x
  | .ldReg x _ => r == x
  | .orReg x _ => r == x || (r == vf && q == .legacy)
  | .andReg x _ => r == x || (r == vf && q == .legacy)
  | .xorReg x _ => r == x || (r == vf && q == .legacy)
  | .addReg x _ => r == x || r == vf
  | .subReg x _ => r == x || r == vf
  | .shrReg x _ => r == x || r == vf
  | .subnReg x _ => r == x || r == vf
  | .shlReg x _ => r == x || r == vf
  | .sneReg _ _ _ => false
  | .ldI _ => false
  | .jpV0 _ _ => false
  | .rnd x _ => r == x
  | .drw _ _ _ => r == vf
  | .skp _ => false
  | .sknp _ => false
  | .ldVxDt x => r == x
  | .ldVxK _ => false
  | .ldDtVx _ => false
  | .ldStVx _ => false
  | .addI _ => r == vf
  | .ldF _ => false
  | .ldB _ => false
  | .storeRegs _ => false
  | .loadRegs x => r ≤ x

/-- How many data bytes an instruction reaches from `I` (R55). -/
def accessBytes : Instr → Nat
  | .cls _ => 0
  | .ret _ => 0
  | .jp _ => 0
  | .call _ => 0
  | .seImm _ _ => 0
  | .sneImm _ _ => 0
  | .seReg _ _ _ => 0
  | .ldImm _ _ => 0
  | .addImm _ _ => 0
  | .ldReg _ _ => 0
  | .orReg _ _ => 0
  | .andReg _ _ => 0
  | .xorReg _ _ => 0
  | .addReg _ _ => 0
  | .subReg _ _ => 0
  | .shrReg _ _ => 0
  | .subnReg _ _ => 0
  | .shlReg _ _ => 0
  | .sneReg _ _ _ => 0
  | .ldI _ => 0
  | .jpV0 _ _ => 0
  | .rnd _ _ => 0
  | .drw _ _ n => n.toNat
  | .skp _ => 0
  | .sknp _ => 0
  | .ldVxDt _ => 0
  | .ldVxK _ => 0
  | .ldDtVx _ => 0
  | .ldStVx _ => 0
  | .addI _ => 0
  | .ldF _ => 0
  | .ldB _ => 3
  | .storeRegs x => x.val + 1
  | .loadRegs x => x.val + 1

/-- The words of R78: no handler for the key. -/
def illegalKey (d : Fields) : Prop :=
  (d.opcodeClass = 0x0 ∧ d.nn ∉ [0xE0#8, 0xEE#8]) ∨
  (d.opcodeClass = 0x8 ∧ d.n ∈ [0x8#4, 0x9#4, 0xA#4, 0xB#4, 0xC#4, 0xD#4, 0xF#4]) ∨
  (d.opcodeClass = 0xE ∧ d.nn ∉ [0x9E#8, 0xA1#8]) ∨
  (d.opcodeClass = 0xF ∧ d.nn ∉ [0x07#8, 0x0A#8, 0x15#8, 0x18#8, 0x1E#8, 0x29#8, 0x33#8, 0x55#8, 0x65#8])

/-- The sprite of `DRW Vx, Vy, n` has a 1 bit at row `r`, column `c` of the display: row `r` is one of the `n` rows from
`V[y] mod 32`, column `c` one of the eight from `V[x] mod 64`, bit 7 leftmost (R142, R144). -/
def spriteBit (s : State) (x y : Reg) (n : Nibble) (r : Fin 32) (c : Fin 64) : Bool :=
  let cx := (s.reg x).toNat % 64
  let cy := (s.reg y).toNat % 32
  decide (cy ≤ r.val ∧ r.val < cy + n.toNat ∧ cx ≤ c.val ∧ c.val < cx + 8) &&
    (s.mem.read (s.index.toNat + (r.val - cy))).getLsbD (7 - (c.val - cx))

/-- What every state of a run satisfies: memory in its canonical form; TICKCNT below TICK_DIV (R33); a fault is recorded
exactly when halted, and an empty record is all zero (R34, R187); every entry on the stack is what a `CALL` at a legal
address pushes (R101); in WAIT_RELEASE `pc` is past the `LD Vx, K` (R96). -/
structure State.Legal (s : State) : Prop where
  mem_wf : s.mem.wf
  tickcnt_lt : s.tickcnt < s.tickDiv
  fault_iff : s.fault.cause = .none ↔ s.status ≠ .halted
  fault_empty : s.fault.cause = .none → s.fault = ⟨.none, 0, 0, 0⟩
  stack_entries : ∀ j : Fin 16, j.val < s.sp.val → AfterFetch (s.stack.get j)
  wait_pc : s.status = .waitRelease → AfterFetch s.pc

/-- The word memory holds at an address (R57). -/
def State.wordAt (s : State) (a : Word) : Word := wordOfBytes (s.mem.read a.toNat) (s.mem.read (a.toNat + 1))

/-- What the record of a halted state says of it, cause by cause (R181, R187). -/
def State.FaultTruth (s : State) : Prop :=
  s.status = .halted →
    match s.fault.cause with
    | .none => False
    | .badProgramCounter =>
      ¬ LegalFetch s.pc ∧ s.fault.info = s.pc ∧ s.fault.addr = s.pc ∧ s.fault.word = 0
    | .unknownInstruction =>
      (LegalFetch s.fault.addr ∧ s.pc = s.fault.addr + 2 ∧ s.fault.word = s.wordAt s.fault.addr) ∧
      s.fault.info = s.fault.word ∧ illegalKey (decodeFields s.fault.word)
    | .stackOverflow =>
      (LegalFetch s.fault.addr ∧ s.pc = s.fault.addr + 2 ∧ s.fault.word = s.wordAt s.fault.addr) ∧
      s.fault.info = s.pc ∧ s.sp.val = 16 ∧ ∃ nnn, decodeWord s.fault.word = .ok (.call nnn)
    | .stackUnderflow =>
      (LegalFetch s.fault.addr ∧ s.pc = s.fault.addr + 2 ∧ s.fault.word = s.wordAt s.fault.addr) ∧
      s.fault.info = 0 ∧ s.sp.val = 0 ∧ ∃ x, decodeWord s.fault.word = .ok (.ret x)
    | .keyIndexOutOfRange =>
      (LegalFetch s.fault.addr ∧ s.pc = s.fault.addr + 2 ∧ s.fault.word = s.wordAt s.fault.addr) ∧
      ∃ x, (decodeWord s.fault.word = .ok (.skp x) ∨ decodeWord s.fault.word = .ok (.sknp x)) ∧
        15 < (s.reg x).toNat ∧ s.fault.info.toNat = (s.reg x).toNat
    | .addressOutOfRange =>
      (LegalFetch s.fault.addr ∧ s.pc = s.fault.addr + 2 ∧ s.fault.word = s.wordAt s.fault.addr) ∧
      s.fault.info = s.index ∧
      ∃ i, decodeWord s.fault.word = .ok i ∧ 0 < accessBytes i ∧ 0xFFF < s.index.toNat + accessBytes i - 1

/-- The step from `s` counts for the prescaler (R199): it is requested, the engine is not halted, it is no poll without a
release, and it ends in RUN. -/
def State.Counts (s : State) : Prop :=
  s.Requested ∧ s.status ≠ .halted ∧ ¬ (s.status = .waitRelease ∧ s.keyReleased s.kwKey = false) ∧
    ∃ t, step s = .next t ∧ t.status = .run

/-- The step from `s` counts and executes no `LD DT, Vx` (R219). -/
def State.CountsKeepingDt (s : State) : Prop :=
  s.Counts ∧ (s.status = .run → ∀ x, decodeWord s.fetchWord ≠ .ok (.ldDtVx x))

/-- A safe run of `n` steps: every state on the way is legal and none is halted. -/
def SafeRun (n : Nat) (s : State) : Prop :=
  ∀ k, k ≤ n → ∃ t, Host.Core.run core k s = .next t ∧ t.Legal ∧ t.status ≠ .halted

end Sys2Proof.Machine
end

