-- ==== Sys2Proof/Certificates/Slice0/Obligations.lean ====
section
/-! DEFINITION. The statements about the machine. "stated" ones formalise a numbered rule of the spec; the others rest on
a decision, a general-knowledge item or an inference the spec marks as its own, or on an entry of the model's log, and
their docstrings say which. -/

open Sys2Proof Sys2Proof.Machine

/-! Encoding -/

/-- Words written out in 95_test_vectors.md section 2 (and `6005`, `A050` of the source) decode to what that section says. -/
def Obligations.SampleWordsDecode : Prop :=
  decodeWord 0xD9A7 = .ok (.drw 9 10 7) ∧ decodeWord 0x00E0 = .ok (.cls 0) ∧ decodeWord 0x0AEE = .ok (.ret 10) ∧
  decodeWord 0x8AB4 = .ok (.addReg 10 11) ∧ decodeWord 0x8AB8 = .error (.unknownInstruction 0x8AB8) ∧
  decodeWord 0x5AB3 = .ok (.seReg 10 11 3) ∧ decodeWord 0xE19E = .ok (.skp 1) ∧ decodeWord 0xF31E = .ok (.addI 3) ∧
  decodeWord 0xF31F = .error (.unknownInstruction 0xF31F) ∧ decodeWord 0xB2FF = .ok (.jpV0 0x2FF 2) ∧
  decodeWord 0x6005 = .ok (.ldImm 0 0x05) ∧ decodeWord 0xA050 = .ok (.ldI 0x050)

/-- R71: every field by its bit position, the overlaps of the fields, and the two bytes of the word. -/
def Obligations.FieldsAreFixedBitRanges : Prop :=
  ∀ w : Word,
    (decodeFields w).opcodeClass.toNat = w.toNat / 2 ^ 12 ∧
    (decodeFields w).x.val = w.toNat / 2 ^ 8 % 2 ^ 4 ∧
    (decodeFields w).y.val = w.toNat / 2 ^ 4 % 2 ^ 4 ∧
    (decodeFields w).n.toNat = w.toNat % 2 ^ 4 ∧
    (decodeFields w).nn.toNat = (decodeFields w).y.val * 16 + (decodeFields w).n.toNat ∧
    (decodeFields w).nnn.toNat =
      (decodeFields w).x.val * 256 + (decodeFields w).y.val * 16 + (decodeFields w).n.toNat ∧
    (decodeFields w).word = w ∧
    ∀ hi lo : Byte, w = wordOfBytes hi lo →
      hi.toNat = (decodeFields w).opcodeClass.toNat * 16 + (decodeFields w).x.val ∧ lo = (decodeFields w).nn

/-- Decoding the two bytes of any well-formed instruction gives it back, whatever follows them (log 10 keeps the ignored
digits as data). -/
def Obligations.DecodeOfEncodeIsTheInstruction : Prop :=
  ∀ (i : Instr) (rest : List Byte), i.wellFormed = true → decode (encodeBytes i ++ rest) = .ok (i, rest)

/-- Every word the decoder accepts is exactly the word of the instruction it gives, which is well formed. -/
def Obligations.EncodeOfDecodeIsTheWord : Prop :=
  ∀ (w : Word) (i : Instr), decodeWord w = .ok i → encode i = w ∧ i.wellFormed = true

/-- 30_encoding.md section 6 (the spec derives it): a word is legal exactly when a row of the opcode table covers it, the
row is the decoded instruction's, and no word is in two rows. -/
def Obligations.TableRowsPartitionTheLegalWords : Prop :=
  (∀ w : Word, (∃ i, decodeWord w = .ok i) ↔ ∃ row ∈ opcodeTable, row.covers w = true) ∧
  (∀ (w : Word) (i : Instr), decodeWord w = .ok i → i.row ∈ opcodeTable ∧ i.row.covers w = true) ∧
  opcodeTable.Pairwise (fun row other => ∀ w : Word, ¬ (row.covers w = true ∧ other.covers w = true))

/-! The step -/

/-- A word whose key has no handler halts the machine at dispatch, after the advance, before any operand is read; every
other word decodes. Rests on 30_encoding.md section 4 and 60_exceptions.md section 1; the codes and the information value are
the spec's decision D14. -/
def Obligations.IllegalWordsRaiseUnknownInstruction : Prop :=
  ∀ s : State, s.status = .run → s.Requested → LegalFetch s.pc →
    (illegalKey (decodeFields (s.wordAt s.pc)) →
      ∃ t, step s = .next t.consumeInput ∧
        HaltedWith { s with pc := s.pc + 2 } t .unknownInstruction (s.wordAt s.pc) s.pc (s.wordAt s.pc)) ∧
    (¬ illegalKey (decodeFields (s.wordAt s.pc)) → ∃ i, decodeWord (s.wordAt s.pc) = .ok i)

/-- When the bytes at `pc` decode to `i`, the step is `exec i` at the state whose `pc` is past the word; then the timer
hook, if the instruction left the engine in RUN (log 11); then the input sample is gone (log 1). A stop of `exec` would be
the step's. -/
def Obligations.StepRunsTheDecodedInstruction : Prop :=
  ∀ (s : State) (i : Instr), s.status = .run → s.Requested → LegalFetch s.pc →
    decode [s.mem.read s.pc.toNat, s.mem.read (s.pc.toNat + 1)] = .ok (i, []) →
    step s = mapNext (fun t => (if t.status = .run then t.timerHook else t).consumeInput)
      (exec i { s with pc := s.pc + 2 })

/-- An odd `pc`, or one below 0x200 or above 0xFFE, faults at the start of the step: nothing is fetched and `pc` keeps the
offending value. Rests on 40_engine_cycle.md section 2; that the check is made at fetch is the spec's decision D8. -/
def Obligations.BadProgramCounterHaltsBeforeTheFetch : Prop :=
  ∀ s : State, s.status = .run → s.Requested → ¬ LegalFetch s.pc →
    ∃ t, step s = .next t.consumeInput ∧ HaltedWith s t .badProgramCounter s.pc s.pc 0

/-- A halted engine, and one of which no step is requested, changes nothing (the spec's decisions D26 and D2); only the
outside's sample is gone (log 1). -/
def Obligations.HaltedOrUnrequestedStepChangesNothing : Prop :=
  ∀ s : State, s.status = .halted ∨ ¬ s.Requested → ∃ t : State, step s = .next t ∧ SameBlock s t

/-- The step in WAIT_RELEASE: with the latched key's release in the sample, the register is written, the engine runs on
and the hook runs once; without it nothing changes; `pc` stays in both (40_engine_cycle.md section 3, the spec's decision D13). -/
def Obligations.WaitReleaseStepPollsTheLatchedKey : Prop :=
  ∀ s : State, s.status = .waitRelease → s.Requested →
    (s.input.keyReleased.getLsbD s.kwKey.val = true →
      ∃ u t : State, u.status = .run ∧ u = { s with v := u.v, status := .run } ∧ (u.reg s.kwX).toNat = s.kwKey.val ∧
        (∀ r, r ≠ s.kwX → u.reg r = s.reg r) ∧ step s = .next t ∧ SameBlock u.timerHook t) ∧
    (s.input.keyReleased.getLsbD s.kwKey.val = false → ∃ t : State, step s = .next t ∧ SameBlock s t)

/-- Which steps count: a step of a running or waiting engine that ends in RUN moves the prescaler by the hook's rule; every
other step leaves TICKCNT, DT and ST alone (60_exceptions.md section 4; the spec's decisions D6, D13, D26, log 11). -/
def Obligations.OnlyCompletedInstructionsMoveThePrescaler : Prop :=
  ∀ s t : State, step s = .next t →
    (s.Requested ∧ s.status ≠ .halted ∧ t.status = .run ∧ ¬ (s.status = .waitRelease ∧ s.keyReleased s.kwKey = false) →
      t.tickcnt = if s.tickDiv ≤ s.tickcnt + 1 then 0 else s.tickcnt + 1) ∧
    (¬ s.Requested ∨ s.status = .halted ∨ t.status ≠ .run →
      t.tickcnt = s.tickcnt ∧ t.dt = s.dt ∧ t.st = s.st)

/-- Faults are precise (60_exceptions.md section 2). That only a running engine faults is the spec's decision D13, that an
illegal `pc` and nothing else gives BadProgramCounter its decision D8 (40_engine_cycle.md sections 2 and 3). -/
def Obligations.FaultingStepChangesOnlyPcAndTheRecord : Prop :=
  ∀ s t : State, s.status ≠ .halted → step s = .next t → t.status = .halted →
    s.status = .run ∧
    t = { s with pc := t.pc, fault := t.fault, status := .halted, inputs := t.inputs, inputSeq := t.inputSeq } ∧
    SameMemory s t ∧
    (LegalFetch s.pc → t.pc = s.pc + 2 ∧ t.fault.cause ≠ .badProgramCounter) ∧
    (¬ LegalFetch s.pc → t.pc = s.pc ∧ t.fault.cause = .badProgramCounter)

/-- Every step answers a next state: no state and no word makes the model stop (the block's faults are next states, log 12). -/
def Obligations.EveryStepAnswersNext : Prop :=
  ∀ s : State, ∃ t, step s = .next t

/-- A legal state stays legal in every step. -/
def Obligations.StepKeepsLegalStates : Prop :=
  ∀ s t : State, s.Legal → step s = .next t → t.Legal

/-- A halted state's record keeps telling the truth in every step (60_exceptions.md sections 1 and 2; the codes and
information values are the spec's decision D14). -/
def Obligations.StepKeepsTheFaultRecordTrue : Prop :=
  ∀ s t : State, s.FaultTruth → step s = .next t → t.FaultTruth

/-- The state after reset is legal, and its record tells the truth, for either strap, every rate and every FONT. -/
def Obligations.ResetStateIsLegal : Prop :=
  (∀ (strap : QuirkMode) (rate : Nat) (font : Config.Font), (State.resetWith strap rate font).Legal ∧ (State.resetWith strap rate font).FaultTruth) ∧
  State.reset.Legal ∧ State.reset.FaultTruth

/-- The reset table of 10_state.md section 6. Memory and `pc` are the source's, the other values the spec's decision D3, the
content of FONT free (log 5); the stack slots' value is the model's own and not stated here (log 8). -/
def Obligations.ResetLeavesTheTableOfValues : Prop :=
  ∀ (strap : QuirkMode) (rate : Nat) (font : Config.Font),
    (∀ a, a < 0x050 ∨ 0x0A0 ≤ a → (State.resetWith strap rate font).mem.read a = 0) ∧
    (∀ j, (h : j < 80) → (State.resetWith strap rate font).mem.read (0x050 + j) = font[j]) ∧
    (State.resetWith strap rate font).pc.toNat = 0x200 ∧
    (∀ r, (State.resetWith strap rate font).reg r = 0) ∧ (State.resetWith strap rate font).index = 0 ∧
    (State.resetWith strap rate font).sp.val = 0 ∧ (State.resetWith strap rate font).dt = 0 ∧
    (State.resetWith strap rate font).stOut = 0 ∧ (∀ r c, (State.resetWith strap rate font).dispPixel r c = false) ∧
    (State.resetWith strap rate font).quirkMode = strap ∧ (State.resetWith strap rate font).status = .run ∧
    (State.resetWith strap rate font).kwKey = 0 ∧ (State.resetWith strap rate font).kwX = 0 ∧
    (State.resetWith strap rate font).tickcnt = 0 ∧ (State.resetWith strap rate font).faultCause = 0 ∧
    (State.resetWith strap rate font).faultInfo = 0 ∧ (State.resetWith strap rate font).faultAddr = 0 ∧
    (State.resetWith strap rate font).faultWord = 0

/-- R212: the loader's contract, for every strap, FONT and rate the spec admits; "the first step" is a requested one. -/
def Obligations.BootLoadsTheImageOrAborts : Prop :=
  ∀ (strap : QuirkMode) (rate : Nat) (font : Config.Font) (image : List Byte), 60 ≤ rate →
    (image.length ≤ 3216 ↔ 0x200 + image.length ≤ 0xE8F + 1) ∧
    (image.length ≤ 3216 →
      ∃ t, boot strap rate font image = .next t ∧ t = { State.resetWith strap (rate - 60) font with mem := t.mem } ∧
        (∀ j, (h : j < image.length) → t.mem.read (0x200 + j) = image[j]) ∧
        t.mem.read (0x200 + image.length) = 0 ∧
        SameMemoryOutside (State.resetWith strap (rate - 60) font) t 0x200 image.length) ∧
    (3216 < image.length → boot strap rate font image = .fault .imageTooLong) ∧
    (image = [] → ∀ t, boot strap rate font image = .next t → t.Requested →
      ∃ u, step t = .next u ∧ u.status = .halted ∧ u.fault.cause = .unknownInstruction ∧ u.fault.info = 0x0000)

/-- No return from a fault: the record shows the first for ever (60_exceptions.md section 2, the spec's decision D26), and
reset, the only exit, takes a halted state to the values after reset (70_reset_and_hazards.md section 1). That reset lands
between two steps and keeps the platform's rate and FONT and the outside's schedule is log 16's DESIGN CHOICE. -/
def Obligations.HaltedIsForeverAndResetIsTotal : Prop :=
  ∀ (n : Nat) (s : State), s.status = .halted →
    ∃ t : State, Host.Core.run Sys2Proof.core n s = .next t ∧ SameBlock s t ∧
      ∀ strap : QuirkMode, SameBlock (State.resetWith strap s.rateOver60 s.mem.font) (t.assertReset strap)

/-- No run changes a parameter: the quirk mode (the spec's decision D4), the instruction rate, FONT (D17). -/
def Obligations.RunsKeepTheStrapAndTheRate : Prop :=
  ∀ (n : Nat) (s t : State), Host.Core.run Sys2Proof.core n s = .next t →
    t.quirkMode = s.quirkMode ∧ t.rateOver60 = s.rateOver60 ∧ t.mem.font = s.mem.font

/-! Rules over all instructions -/

/-- The five groups differ between the modes, every other instruction behaves identically in both; legacy shifts read `V[y]`
and modern ones `V[x]`, the legacy offset jump uses `V[0]` and the modern one `V[x]` (00_scope.md section 8). The jump's base
is G10, its unmasked sum the spec's decision D22, the left shift's distance G12. -/
def Obligations.QuirkModeChangesOnlyItsFiveGroups : Prop :=
  (∀ (i : Instr) (s : State) (q : QuirkMode), (touches i).quirk = false →
    exec i { s with quirkMode := q } = mapNext (fun t => { t with quirkMode := q }) (exec i s)) ∧
  (∀ f : Reg → Reg → Instr, f ∈ [Instr.orReg, Instr.andReg, Instr.xorReg, Instr.shrReg, Instr.shlReg,
      fun x _ => .storeRegs x, fun x _ => .loadRegs x, fun x _ => .jpV0 (BitVec.ofNat 12 (x.val * 256)) x] →
    ∃ (x y : Reg) (s : State), s.quirkMode = .legacy ∧
      mapNext (fun t => { t with quirkMode := .legacy }) (exec (f x y) { s with quirkMode := .modern }) ≠ exec (f x y) s) ∧
  (∀ (x y : Reg) (s t : State), x ≠ vf → exec (.shrReg x y) s = .next t →
    (t.reg x).toNat = (match s.quirkMode with | .legacy => s.reg y | .modern => s.reg x).toNat / 2) ∧
  (∀ (x y : Reg) (s t : State), x ≠ vf → exec (.shlReg x y) s = .next t →
    (t.reg x).toNat = (match s.quirkMode with | .legacy => s.reg y | .modern => s.reg x).toNat * 2 % 256) ∧
  (∀ (nnn : Addr) (x : Reg) (s t : State), exec (.jpV0 nnn x) s = .next t →
    t.pc.toNat = nnn.toNat + (match s.quirkMode with | .legacy => s.reg 0 | .modern => s.reg x).toNat)

/-- The key flags and the random byte reach only `SKP`, `SKNP`, `LD Vx, K` and `RND` (20_memory.md section 1, 42_alu.md section 4;
the sampling is log 1). -/
def Obligations.InputsReachOnlyKeyAndRandomInstructions : Prop :=
  ∀ (i : Instr) (s : State) (l : List InputSample) (k : Nat), (touches i).input = false →
    exec i { s with inputs := l, inputSeq := k } = mapNext (fun t => { t with inputs := l, inputSeq := k }) (exec i s)

/-- Memory is written only by `LD B, Vx` and `LD [I], Vx`, the display only by `CLS` and `DRW`, the call stack only by
`CALL` and `RET`, the timers as operands only by `LD DT, Vx` and `LD ST, Vx`, and no instruction writes TICKCNT, the quirk
mode, the rate or FONT (10_state.md sections 2, 3 and 7, 20_memory.md sections 1 and 2). -/
def Obligations.EachSpaceIsWrittenOnlyByItsInstructions : Prop :=
  ∀ (i : Instr) (s t : State), exec i s = .next t →
    ((touches i).mem = false → t.mem = s.mem ∧ SameMemory s t) ∧
    ((touches i).display = false → t.display = s.display) ∧
    ((touches i).stack = false → t.stack = s.stack ∧ t.sp = s.sp) ∧
    ((touches i).timers = false → t.dt = s.dt ∧ t.st = s.st) ∧
    t.tickcnt = s.tickcnt ∧ t.quirkMode = s.quirkMode ∧ t.rateOver60 = s.rateOver60 ∧ t.mem.font = s.mem.font ∧
    t.inputs = s.inputs ∧ t.inputSeq = s.inputSeq

/-- `I` is written only by its five instructions, `pc` stays at own address plus 2 but in control transfers and the key wait,
and a general register changes only as the instruction's destination or as its flag (10_state.md sections 1 and 2; the order
of result and flag is the spec's decision D7). -/
def Obligations.EachRegisterIsWrittenOnlyByItsInstructions : Prop :=
  ∀ (i : Instr) (s t : State), exec i s = .next t →
    ((touches i).index = false → t.index = s.index) ∧
    ((touches i).pc = false → t.pc = s.pc) ∧
    ∀ r, writesReg s.quirkMode r i = false → t.reg r = s.reg r

/-- VF as a flag is the whole byte 0x00 or 0x01, also when VF is the destination, and the legacy logic operations leave 0
(10_state.md section 1; flag last is the spec's decision D7). -/
def Obligations.FlagsAreWholeBytesZeroOrOne : Prop :=
  ∀ (i : Instr) (s t : State), exec i s = .next t → t.status ≠ .halted →
    ((touches i).flag = true → t.reg vf = 0 ∨ t.reg vf = 1) ∧
    (∀ x y, i = .orReg x y ∨ i = .andReg x y ∨ i = .xorReg x y → s.quirkMode = .legacy → t.reg vf = 0)

/-! Control transfer -/

/-- R101: `RET`; the last clauses are the corner case of a `CALL` at 0xFFE. -/
def Obligations.RetPopsTheStackOrUnderflows : Prop :=
  ∀ (x : Nibble) (s : State),
    decodeWord (formatXI 0x0 x 0xEE) = .ok (.ret x) ∧
    (∀ h : 0 < s.sp.val, ∃ t, exec (.ret x) s = .next t ∧ t.pc = s.stack.get ⟨s.sp.val - 1, by omega⟩ ∧
      t.sp.val = s.sp.val - 1 ∧ t = { s with pc := t.pc, sp := t.sp } ∧ SameMemory s t ∧
      (s.Legal → t.pc.toNat % 2 = 0 ∧ t.pc.toNat ≤ 0x1000) ∧
      (t.pc.toNat = 0x1000 → ∀ u : State, u.pc = t.pc → u.status = .run → u.Requested →
        ∃ w, step u = .next w ∧ w.status = .halted ∧ w.fault.cause = .badProgramCounter)) ∧
    (∀ (nnn : Addr) (u t : State) (h : u.sp.val < 16), exec (.call nnn) u = .next t →
      ((t.stack.get ⟨u.sp.val, h⟩).toNat = 0x1000 ↔ (u.pc - 2).toNat = 0xFFE)) ∧
    (s.sp.val = 0 → ∃ t, exec (.ret x) s = .next t ∧ t.status = .halted ∧ t.fault.cause = .stackUnderflow ∧
      t = { s with fault := t.fault, status := .halted } ∧ SameMemory s t)

/-- `JP nnn` (41_flow.md sections 1 and 2). The fault at the next step, with the target as its information, is the spec's
derived rule R109 with its decisions D8 and D14. -/
def Obligations.JumpSetsTheProgramCounter : Prop :=
  ∀ (nnn : Addr) (s : State),
    decodeWord (formatA 0x1 nnn) = .ok (.jp nnn) ∧
    ∃ t, exec (.jp nnn) s = .next t ∧ t.pc.toNat = nnn.toNat ∧ t = { s with pc := t.pc } ∧ SameMemory s t ∧
      (nnn.toNat + 2 = s.pc.toNat → t.pc = s.pc - 2) ∧
      (nnn.toNat < 0x200 ∨ nnn.toNat % 2 = 1 → ∀ u : State, u.pc = t.pc → u.status = .run → u.Requested →
        ∃ w, step u = .next w ∧ w.status = .halted ∧ w.fault.cause = .badProgramCounter ∧ w.fault.info = t.pc)

/-- `CALL nnn` pushes `pc`, already past the `CALL` (the spec derives which value), and jumps; the seventeenth entry
overflows and then nothing is pushed (41_flow.md section 2, 10_state.md section 2; the record's values are decision D14). -/
def Obligations.CallPushesTheReturnAddressOrOverflows : Prop :=
  ∀ (nnn : Addr) (s : State),
    (∀ h : s.sp.val < 16, ∃ t, exec (.call nnn) s = .next t ∧ t.pc.toNat = nnn.toNat ∧ t.sp.val = s.sp.val + 1 ∧
      t.stack.get ⟨s.sp.val, h⟩ = s.pc ∧ (∀ j : Fin 16, j.val ≠ s.sp.val → t.stack.get j = s.stack.get j) ∧
      t = { s with pc := t.pc, stack := t.stack, sp := t.sp } ∧ SameMemory s t) ∧
    (s.sp.val = 16 → ∃ t, exec (.call nnn) s = .next t ∧
      HaltedWith s t .stackOverflow s.pc (s.pc - 2) (formatA 0x2 nnn))

/-- A `RET` that finds the stack a `CALL` left comes back behind the `CALL` and leaves the stack as it was (41_flow.md section 2). -/
def Obligations.ReturnComesBackBehindTheCall : Prop :=
  ∀ (nnn : Addr) (x : Nibble) (s t u : State), s.sp.val < 16 → exec (.call nnn) s = .next t →
    u.stack = t.stack → u.sp = t.sp →
    ∃ w, exec (.ret x) u = .next w ∧ w.pc = s.pc ∧ w.sp = s.sp ∧
      ∀ j : Fin 16, j.val < s.sp.val → w.stack.get j = s.stack.get j

/-- `JP V0, nnn`: the whole sum, not masked (41_flow.md section 3; base and width are G10 and the spec's decision D22). -/
def Obligations.OffsetJumpAddsTheModesRegister : Prop :=
  ∀ (nnn : Addr) (x : Reg) (s : State), ∃ t, exec (.jpV0 nnn x) s = .next t ∧
    (s.quirkMode = .legacy → t.pc.toNat = nnn.toNat + (s.reg 0).toNat) ∧
    (s.quirkMode = .modern → t.pc.toNat = nnn.toNat + (s.reg x).toNat) ∧
    t = { s with pc := t.pc } ∧ SameMemory s t

/-- The four compare skips: two more bytes when the predicate holds (41_flow.md section 4; the predicates are G5). -/
def Obligations.CompareSkipsMoveTwoBytesFurther : Prop :=
  ∀ (x y : Reg) (nn : Byte) (n : Nibble) (s : State),
    exec (.seImm x nn) s = .next { s with pc := if (s.reg x).toNat = nn.toNat then s.pc + 2 else s.pc } ∧
    exec (.sneImm x nn) s = .next { s with pc := if (s.reg x).toNat = nn.toNat then s.pc else s.pc + 2 } ∧
    exec (.seReg x y n) s = .next { s with pc := if (s.reg x).toNat = (s.reg y).toNat then s.pc + 2 else s.pc } ∧
    exec (.sneReg x y n) s = .next { s with pc := if (s.reg x).toNat = (s.reg y).toNat then s.pc else s.pc + 2 }

/-! Keys -/

/-- R151, R152: `SKP` and `SKNP`. -/
def Obligations.KeySkipsTestThePressedFlag : Prop :=
  ∀ (x : Reg) (s : State),
    decodeWord (formatXI 0xE (BitVec.ofFin x) 0x9E) = .ok (.skp x) ∧
    decodeWord (formatXI 0xE (BitVec.ofFin x) 0xA1) = .ok (.sknp x) ∧
    ((s.reg x).toNat ≤ 15 →
      (∃ t, exec (.skp x) s = .next t ∧ t = { s with pc := t.pc } ∧ SameMemory s t ∧
        (s.input.keyPressed.getLsbD (s.reg x).toNat = true → t.pc = s.pc + 2) ∧
        (s.input.keyPressed.getLsbD (s.reg x).toNat = false → t.pc = s.pc)) ∧
      (∃ t, exec (.sknp x) s = .next t ∧ t = { s with pc := t.pc } ∧ SameMemory s t ∧
        (s.input.keyPressed.getLsbD (s.reg x).toNat = true → t.pc = s.pc) ∧
        (s.input.keyPressed.getLsbD (s.reg x).toNat = false → t.pc = s.pc + 2))) ∧
    (15 < (s.reg x).toNat → ∀ i, i = .skp x ∨ i = .sknp x →
      ∃ t, exec i s = .next t ∧ t.status = .halted ∧ t.fault.cause = .keyIndexOutOfRange ∧
        t.fault.info.toNat = (s.reg x).toNat ∧ t = { s with fault := t.fault, status := .halted } ∧ SameMemory s t)

/-- `LD Vx, K`, first phase: no key, back to the instruction itself; else the lowest pressed key and the destination are
latched and the engine waits (44_keys.md; mechanism and key choice are the spec's decision D13). -/
def Obligations.KeyWaitLatchesTheLowestPressedKey : Prop :=
  ∀ (x : Reg) (s : State),
    ((∀ k : Key, s.input.keyPressed.getLsbD k.val = false) → exec (.ldVxK x) s = .next { s with pc := s.pc - 2 }) ∧
    (∀ k : Key, s.input.keyPressed.getLsbD k.val = true → (∀ j, j < k → s.input.keyPressed.getLsbD j.val = false) →
      exec (.ldVxK x) s = .next { s with kwKey := k, kwX := x, status := .waitRelease })

/-- `LD Vx, K`, the wait: however many steps the release takes, nothing changes before it (no tick either); in the step
that sees it the register is written, the engine runs on and the whole wait counts once (60_exceptions.md section 4; the
spec's decisions D6, D13). One scheduled sample goes a step (log 1). From a legal state the run is safe. -/
def Obligations.KeyWaitFreezesUntilTheReleaseAndCountsOnce : Prop :=
  ∀ (n : Nat) (s : State), s.status = .waitRelease → n < s.inputs.length →
    (∀ i ∈ s.inputs.take n, i.stepEn = true ∧ i.keyReleased.getLsbD s.kwKey.val = false) →
    (∀ i ∈ s.inputs[n]?, i.stepEn = true ∧ i.keyReleased.getLsbD s.kwKey.val = true) →
    (∀ k, k ≤ n → ∃ t : State, Host.Core.run Sys2Proof.core k s = .next t ∧ SameBlock s t) ∧
    (∃ t : State, Host.Core.run Sys2Proof.core (n + 1) s = .next t ∧
      t = { s.timerHook with v := t.v, status := .run, inputs := t.inputs, inputSeq := t.inputSeq } ∧
      (t.reg s.kwX).toNat = s.kwKey.val ∧ ∀ r, r ≠ s.kwX → t.reg r = s.reg r) ∧
    (s.Legal → SafeRun (n + 1) s)

/-! Registers and arithmetic -/

/-- Loads into one register: `LD Vx, nn`, `LD Vx, Vy`, `ADD Vx, nn` (no flag), `LD Vx, DT` (42_alu.md sections 2 and 3,
45_timer_index_memory.md section 2; G13, G4, G3, G6). -/
def Obligations.RegisterLoadsWriteOnlyTheirDestination : Prop :=
  ∀ (x y : Reg) (nn : Byte) (s : State) (i : Instr) (value : Nat),
    (i, value) ∈ [(Instr.ldImm x nn, nn.toNat), (.ldReg x y, (s.reg y).toNat),
      (.addImm x nn, ((s.reg x).toNat + nn.toNat) % 256), (.ldVxDt x, s.dt.toNat)] →
    ∃ t, exec i s = .next t ∧ (t.reg x).toNat = value ∧ (∀ r, r ≠ x → t.reg r = s.reg r) ∧
      t = { s with v := t.v } ∧ SameMemory s t

/-- `RND Vx, nn`: this step's random byte under the mask, and every byte can be the draw (42_alu.md section 4; the draw is
free by the spec's decision D18, log 1). -/
def Obligations.RandomIsTheDrawUnderTheMask : Prop :=
  ∀ (x : Reg) (nn : Byte) (s : State),
    (∃ t, exec (.rnd x nn) s = .next t ∧ t.reg x = s.input.rnd &&& nn ∧
      (∀ b, nn.getLsbD b = false → (t.reg x).getLsbD b = false) ∧
      (∀ r, r ≠ x → t.reg r = s.reg r) ∧ t = { s with v := t.v } ∧ SameMemory s t) ∧
    (∀ draw : Byte, ∃ (l : List InputSample) (t : State), exec (.rnd x nn) { s with inputs := l } = .next t ∧
      t.reg x = draw &&& nn ∧ (nn = 0xFF → t.reg x = draw) ∧ (nn = 0x00 → t.reg x = 0))

/-- `OR`, `AND`, `XOR`: the result, and VF cleared last in legacy mode only (42_alu.md section 3; the digits are G2, the order D7). -/
def Obligations.LogicOperationsClearTheFlagInLegacyMode : Prop :=
  ∀ (x y : Reg) (s : State) (i : Instr) (value : Byte),
    (i, value) ∈ [(Instr.orReg x y, s.reg x ||| s.reg y), (.andReg x y, s.reg x &&& s.reg y),
      (.xorReg x y, s.reg x ^^^ s.reg y)] →
    ∃ t, exec i s = .next t ∧
      (∀ b, (value.getLsbD b = match i with
        | .orReg _ _ => (s.reg x).getLsbD b || (s.reg y).getLsbD b
        | .andReg _ _ => (s.reg x).getLsbD b && (s.reg y).getLsbD b
        | _ => (s.reg x).getLsbD b ^^ (s.reg y).getLsbD b)) ∧
      (x ≠ vf ∨ s.quirkMode = .modern → t.reg x = value) ∧ (s.quirkMode = .legacy → t.reg vf = 0) ∧
      (s.quirkMode = .modern → x ≠ vf → t.reg vf = s.reg vf) ∧
      (∀ r, r ≠ x → r ≠ vf → t.reg r = s.reg r) ∧ t = { s with v := t.v } ∧ SameMemory s t

/-- `ADD Vx, Vy`: the sum modulo 256 and, last, the carry (42_alu.md section 3; the digit is G2, the order D7). -/
def Obligations.AddSetsTheCarry : Prop :=
  ∀ (x y : Reg) (s : State), ∃ t, exec (.addReg x y) s = .next t ∧
    (x ≠ vf → (t.reg x).toNat = ((s.reg x).toNat + (s.reg y).toNat) % 256) ∧
    (t.reg vf).toNat = (if (s.reg x).toNat + (s.reg y).toNat > 255 then 1 else 0) ∧
    (∀ r, r ≠ x → r ≠ vf → t.reg r = s.reg r) ∧ t = { s with v := t.v } ∧ SameMemory s t

/-- `SUB` and `SUBN`: the difference modulo 256 and, last, the flag of the strict comparison, 0 on equal operands
(42_alu.md sections 1 and 3; the digits are G2, the order D7). -/
def Obligations.SubtractionsSetTheStrictNoBorrowFlag : Prop :=
  ∀ (x y : Reg) (s : State) (i : Instr) (a b : Nat),
    (i, a, b) ∈ [(Instr.subReg x y, (s.reg x).toNat, (s.reg y).toNat), (.subnReg x y, (s.reg y).toNat, (s.reg x).toNat)] →
    ∃ t, exec i s = .next t ∧
      (x ≠ vf → (t.reg x).toNat = if a ≥ b then a - b else a + 256 - b) ∧
      (t.reg vf).toNat = (if a > b then 1 else 0) ∧
      (∀ r, r ≠ x → r ≠ vf → t.reg r = s.reg r) ∧ t = { s with v := t.v } ∧ SameMemory s t

/-- `SHR` and `SHL`: the mode's operand moved by one bit and, last, the bit shifted out (42_alu.md section 3; the digits are
G2, the left shift's distance G12, the order D7). -/
def Obligations.ShiftsMoveOneBitIntoTheFlag : Prop :=
  ∀ (x y : Reg) (s : State) (a : Nat),
    (s.quirkMode = .legacy → a = (s.reg y).toNat) → (s.quirkMode = .modern → a = (s.reg x).toNat) →
    (∃ t, exec (.shrReg x y) s = .next t ∧ (x ≠ vf → (t.reg x).toNat = a / 2) ∧ (t.reg vf).toNat = a % 2 ∧
      (∀ r, r ≠ x → r ≠ vf → t.reg r = s.reg r) ∧ t = { s with v := t.v } ∧ SameMemory s t) ∧
    (∃ t, exec (.shlReg x y) s = .next t ∧ (x ≠ vf → (t.reg x).toNat = a * 2 % 256) ∧ (t.reg vf).toNat = a / 128 ∧
      (∀ r, r ≠ x → r ≠ vf → t.reg r = s.reg r) ∧ t = { s with v := t.v } ∧ SameMemory s t)

/-! Display -/

/-- `CLS`: every pixel is 0 and nothing else changes (43_draw.md; that VF stays is an inference the spec marks). -/
def Obligations.ClearScreenClearsEveryPixel : Prop :=
  ∀ (x : Nibble) (s : State), ∃ t, exec (.cls x) s = .next t ∧ (∀ r c, t.dispPixel r c = false) ∧
    t = { s with display := t.display } ∧ SameMemory s t

/-- `DRW Vx, Vy, n`: every pixel is XORed with the sprite's bit there, clipped pixels are neither drawn nor tested, VF tells
whether a set pixel was met, and a sprite that reaches past 0xFFF draws nothing (43_draw.md; the order and the address check are
the spec's decisions D7, D9, D19, the sprite layout G8). -/
def Obligations.DrawXorsTheSpriteIntoTheDisplay : Prop :=
  ∀ (x y : Reg) (n : Nibble) (s : State),
    (n.toNat = 0 ∨ s.index.toNat + n.toNat - 1 ≤ 0xFFF →
      ∃ t, exec (.drw x y n) s = .next t ∧
        (∀ r c, t.dispPixel r c = (s.dispPixel r c ^^ spriteBit s x y n r c)) ∧
        ((∃ r c, s.dispPixel r c = true ∧ spriteBit s x y n r c = true) → t.reg vf = 1) ∧
        ((∀ r c, s.dispPixel r c = true → spriteBit s x y n r c = false) → t.reg vf = 0) ∧
        (∀ r, r ≠ vf → t.reg r = s.reg r) ∧ t = { s with v := t.v, display := t.display } ∧ SameMemory s t) ∧
    (0 < n.toNat → 0xFFF < s.index.toNat + n.toNat - 1 →
      ∃ t, exec (.drw x y n) s = .next t ∧
        HaltedWith s t .addressOutOfRange s.index (s.pc - 2) (formatXY 0xD (BitVec.ofFin x) (BitVec.ofFin y) n))

/-- Drawing the same sprite at the same place twice restores the display; on clear pixels with a visible bit the collision
shows on the second draw only (43_draw.md, corner case (e), the source's property). -/
def Obligations.DrawingTwiceRestoresTheDisplay : Prop :=
  ∀ (x y : Reg) (n : Nibble) (s t u : State), x ≠ vf → y ≠ vf →
    (n.toNat = 0 ∨ s.index.toNat + n.toNat - 1 ≤ 0xFFF) →
    exec (.drw x y n) s = .next t → exec (.drw x y n) t = .next u →
    u.display = s.display ∧
    ((∀ r c, spriteBit s x y n r c = true → s.dispPixel r c = false) → (∃ r c, spriteBit s x y n r c = true) →
      t.reg vf = 0 ∧ u.reg vf = 1)

/-! Index, timers, memory -/

/-- `LD I, nnn` and `LD F, Vx` (45_timer_index_memory.md sections 1 and 3; G13, and the glyph order the spec derives). -/
def Obligations.IndexLoadsSetTheIndex : Prop :=
  ∀ (nnn : Addr) (x : Reg) (s : State) (i : Instr) (value : Nat),
    (i, value) ∈ [(Instr.ldI nnn, nnn.toNat), (.ldF x, 0x050 + 5 * ((s.reg x).toNat % 16))] →
    ∃ t, exec i s = .next t ∧ t.index.toNat = value ∧ t = { s with index := t.index } ∧ SameMemory s t

/-- `ADD I, Vx`: the 16-bit sum, and VF 1 exactly when the true sum exceeds 0xFFF (45_timer_index_memory.md section 3, the spec's
decision D10). -/
def Obligations.AddIndexSetsTheTwelveBitOverflow : Prop :=
  ∀ (x : Reg) (s : State), ∃ t, exec (.addI x) s = .next t ∧
    t.index.toNat = (s.index.toNat + (s.reg x).toNat) % 65536 ∧
    (t.reg vf).toNat = (if s.index.toNat + (s.reg x).toNat > 0x0FFF then 1 else 0) ∧
    (∀ r, r ≠ vf → t.reg r = s.reg r) ∧ t = { s with v := t.v, index := t.index } ∧ SameMemory s t

/-- `LD DT, Vx` and `LD ST, Vx` write their timer and nothing else, TICKCNT included (45_timer_index_memory.md section 2, G6). -/
def Obligations.TimerWritesSetOneTimer : Prop :=
  ∀ (x : Reg) (s : State),
    (∃ t, exec (.ldDtVx x) s = .next t ∧ t.dt.toNat = (s.reg x).toNat ∧ t = { s with dt := t.dt } ∧ SameMemory s t) ∧
    (∃ t, exec (.ldStVx x) s = .next t ∧ t.stOut.toNat = (s.reg x).toNat ∧ t = { s with st := t.st } ∧ SameMemory s t)

/-- `LD B, Vx`: hundreds, tens and ones at `I`, `I + 1`, `I + 2`; past 0xFFF nothing is written (45_timer_index_memory.md section
4; the digit order is G7, the fault the spec's decision D9). -/
def Obligations.DecimalStoreWritesThreeDigits : Prop :=
  ∀ (x : Reg) (s : State),
    (s.index.toNat ≤ 0xFFD →
      ∃ t, exec (.ldB x) s = .next t ∧
        (t.mem.read s.index.toNat).toNat = (s.reg x).toNat / 100 ∧
        (t.mem.read (s.index.toNat + 1)).toNat = (s.reg x).toNat / 10 % 10 ∧
        (t.mem.read (s.index.toNat + 2)).toNat = (s.reg x).toNat % 10 ∧
        SameMemoryOutside s t s.index.toNat 3 ∧ t = { s with mem := t.mem }) ∧
    (0xFFD < s.index.toNat →
      ∃ t, exec (.ldB x) s = .next t ∧
        HaltedWith s t .addressOutOfRange s.index (s.pc - 2) (formatXI 0xF (BitVec.ofFin x) 0x33))

/-- `LD [I], Vx`: `V[0]` to `V[x]` from `I` upwards, `I` advanced in legacy mode only; past 0xFFF nothing is stored
(45_timer_index_memory.md section 5; the fault is the spec's decision D9). -/
def Obligations.BulkStoreWritesTheRegisters : Prop :=
  ∀ (x : Reg) (s : State),
    decodeWord (formatXI 0xF (BitVec.ofFin x) 0x55) = .ok (.storeRegs x) ∧
    (s.index.toNat + x.val ≤ 0xFFF →
      ∃ t, exec (.storeRegs x) s = .next t ∧
        (∀ j : Reg, j ≤ x → t.mem.read (s.index.toNat + j.val) = s.reg j) ∧
        SameMemoryOutside s t s.index.toNat (x.val + 1) ∧
        (s.quirkMode = .legacy → t.index.toNat = (s.index.toNat + x.val + 1) % 65536) ∧
        (s.quirkMode = .modern → t.index = s.index) ∧ t = { s with mem := t.mem, index := t.index }) ∧
    (0xFFF < s.index.toNat + x.val →
      ∃ t, exec (.storeRegs x) s = .next t ∧ t.status = .halted ∧ t.fault.cause = .addressOutOfRange ∧
        t.fault.info = s.index ∧ t = { s with fault := t.fault, status := .halted } ∧ SameMemory s t)

/-- `LD Vx, [I]`: the registers up to `V[x]` from `I` upwards, the others stay (45_timer_index_memory.md section 5; the fault is
the spec's decision D9). -/
def Obligations.BulkLoadReadsTheRegisters : Prop :=
  ∀ (x : Reg) (s : State),
    (s.index.toNat + x.val ≤ 0xFFF →
      ∃ t, exec (.loadRegs x) s = .next t ∧
        (∀ j : Reg, j ≤ x → t.reg j = s.mem.read (s.index.toNat + j.val)) ∧
        (∀ r : Reg, x < r → t.reg r = s.reg r) ∧
        (s.quirkMode = .legacy → t.index.toNat = (s.index.toNat + x.val + 1) % 65536) ∧
        (s.quirkMode = .modern → t.index = s.index) ∧ t = { s with v := t.v, index := t.index } ∧ SameMemory s t) ∧
    (0xFFF < s.index.toNat + x.val →
      ∃ t, exec (.loadRegs x) s = .next t ∧
        HaltedWith s t .addressOutOfRange s.index (s.pc - 2) (formatXI 0xF (BitVec.ofFin x) 0x65))

/-- Storing `V[0]..V[x]` and loading them back from the same address, whatever the registers hold in between, gives the
original values (45_timer_index_memory.md section 5, the source's round-trip property). -/
def Obligations.BulkLoadUndoesBulkStore : Prop :=
  ∀ (x : Reg) (s t u w : State), s.index.toNat + x.val ≤ 0xFFF → exec (.storeRegs x) s = .next t →
    u = { t with v := u.v, index := s.index } → exec (.loadRegs x) u = .next w →
    (∀ j : Reg, j ≤ x → w.reg j = s.reg j) ∧ w.index = t.index

/-- Fetch coherence (20_memory.md section 4, which the spec derives): when `LD B, Vx` or `LD [I], Vx`, from any base, stores
over both bytes of the next instruction's word, the next step runs the instruction decoded from the stored bytes, or halts
on them when they are no instruction. The stored bytes are the meaning's own functions of the registers; what they are,
DecimalStoreWritesThreeDigits and BulkStoreWritesTheRegisters say. -/
def Obligations.StoresAreSeenByTheNextFetch : Prop :=
  ∀ (x : Reg) (s : State) (i : Instr) (bytes : List Byte),
    (i, bytes) ∈ [(Instr.ldB x, decimalDigits (s.reg x)), (.storeRegs x, s.regsUpTo x)] →
    s.status = .run → s.Requested → LegalFetch s.pc → decodeWord s.fetchWord = .ok i →
    s.index.toNat + bytes.length ≤ 0x1000 →
    s.index.toNat ≤ s.pc.toNat + 2 → s.pc.toNat + 3 < s.index.toNat + bytes.length →
    ∃ t, step s = .next t ∧ t.status = .run ∧ t.pc.toNat = s.pc.toNat + 2 ∧
      t.fetchWord = wordOfBytes (bytes.getD (s.pc.toNat + 2 - s.index.toNat) 0)
        (bytes.getD (s.pc.toNat + 3 - s.index.toNat) 0) ∧
      (t.Requested →
        (∀ j, decodeWord t.fetchWord = .ok j → step t =
          mapNext (fun u => (if u.status = .run then u.timerHook else u).consumeInput) (exec j { t with pc := t.pc + 2 })) ∧
        (illegalKey (decodeFields t.fetchWord) → ∃ u, step t = .next u.consumeInput ∧
          HaltedWith { t with pc := t.pc + 2 } u .unknownInstruction t.fetchWord t.pc t.fetchWord))

/-- Two memories in the canonical form (log 6), of the same FONT, that read alike over the address space are the same data. -/
def Obligations.CanonicalMemoriesThatReadAlikeAreEqual : Prop :=
  ∀ m n : Memory, m.wf → n.wf → m.font = n.font → (∀ a, a ≤ 0xFFF → m.read a = n.read a) → m = n

/-! Timers -/

/-- The timer hook: the prescaler counts to TICK_DIV, then both timers go down by one and stop at 0 (60_exceptions.md section 4;
the divider and the place of the tick are the spec's decisions D5, D6). -/
def Obligations.TimerHookTicksEveryTickDiv : Prop :=
  ∀ s : State, s.tickDiv = s.instructionRate / 60 ∧ 60 ≤ s.instructionRate ∧
    (s.tickcnt + 1 < s.tickDiv → s.timerHook = { s with tickcnt := s.tickcnt + 1 }) ∧
    (s.tickDiv ≤ s.tickcnt + 1 →
      s.timerHook.tickcnt = 0 ∧ s.timerHook.dt.toNat = s.dt.toNat - 1 ∧ s.timerHook.st.toNat = s.st.toNat - 1 ∧
      s.timerHook = { s with tickcnt := 0, dt := s.timerHook.dt, st := s.timerHook.st })

/-- The delay formula (70_reset_and_hazards.md section 3, which the spec derives), `k = (v - 1) * TICK_DIV + (TICK_DIV - t)`.
By timer hooks: from a value `v` of at least 1 in DT and a phase `t` of the prescaler, DT reaches 0 at exactly the `k`-th
hook. By steps: counting the step that executes `LD DT, Vx` with `V[x] = v` as the first, and when every later step counts
and writes no DT, DT is 0 after `k` steps and not before. That an instruction counts once, and when, are the spec's
decisions D6 and D13. -/
def Obligations.DelayRunsOutAfterExactlyTheFormula : Prop :=
  (∀ s : State, 1 ≤ s.dt.toNat → s.tickcnt < s.tickDiv →
    (Nat.iterate State.timerHook ((s.dt.toNat - 1) * s.tickDiv + (s.tickDiv - s.tickcnt)) s).dt = 0 ∧
    (∀ j, j < (s.dt.toNat - 1) * s.tickDiv + (s.tickDiv - s.tickcnt) → (Nat.iterate State.timerHook j s).dt ≠ 0) ∧
    (s.dt.toNat - 1) * s.tickDiv + 1 ≤ (s.dt.toNat - 1) * s.tickDiv + (s.tickDiv - s.tickcnt) ∧
    (s.dt.toNat - 1) * s.tickDiv + (s.tickDiv - s.tickcnt) ≤ s.dt.toNat * s.tickDiv) ∧
  (∀ (s : State) (x : Reg) (j : Nat), s.status = .run → s.Requested → LegalFetch s.pc →
    decodeWord s.fetchWord = .ok (.ldDtVx x) → 1 ≤ (s.reg x).toNat → s.tickcnt < s.tickDiv →
    1 ≤ j → j ≤ ((s.reg x).toNat - 1) * s.tickDiv + (s.tickDiv - s.tickcnt) →
    (∀ l, 1 ≤ l → l < j → ∃ u : State, Host.Core.run Sys2Proof.core l s = .next u ∧ u.CountsKeepingDt) →
    ∃ t : State, Host.Core.run Sys2Proof.core j s = .next t ∧
      (t.dt = 0 ↔ j = ((s.reg x).toNat - 1) * s.tickDiv + (s.tickDiv - s.tickcnt)))
end

