-- ==== Sys2Proof/Laws/Decode.lean ====
section
/-! SUPPORT. The fields of a word built by each format (R71, R72), and the bytes of a word (R57), by arithmetic on the
word's number. -/

namespace Sys2Proof

@[simp] theorem regField_toNat (r : Reg) : (regField r).toNat = r.val := rfl

/-- Concatenation is the high part times the weight of the low part, plus the low part (R11). -/
theorem toNat_append_add {m n : Nat} (a : BitVec m) (b : BitVec n) : (a ++ b).toNat = a.toNat * 2 ^ n + b.toNat := by
  rw [BitVec.toNat_append, ← Nat.shiftLeft_add_eq_or_of_lt b.isLt, Nat.shiftLeft_eq]

/-- Format A in numbers (R72). -/
theorem formatA_toNat (c : Nibble) (nnn : Addr) : (formatA c nnn).toNat = c.toNat * 4096 + nnn.toNat :=
  toNat_append_add c nnn

/-- Formats XI, XK and Z in numbers (R72). -/
theorem formatXI_toNat (c x : Nibble) (nn : Byte) :
    (formatXI c x nn).toNat = c.toNat * 4096 + x.toNat * 256 + nn.toNat := by
  have h := toNat_append_add (c ++ x) nn
  rw [toNat_append_add c x] at h
  refine h.trans ?_
  omega

/-- Format XY in numbers (R72). -/
theorem formatXY_toNat (c x y n : Nibble) :
    (formatXY c x y n).toNat = c.toNat * 4096 + x.toNat * 256 + y.toNat * 16 + n.toNat := by
  have h := toNat_append_add (c ++ x ++ y) n
  rw [toNat_append_add (c ++ x) y, toNat_append_add c x] at h
  refine h.trans ?_
  omega

/-- Big-endian: the byte at the lower address counts 256 times (R57). -/
theorem wordOfBytes_toNat (hi lo : Byte) : (wordOfBytes hi lo).toNat = hi.toNat * 256 + lo.toNat :=
  toNat_append_add hi lo

/-- The fields of a word in numbers (R71). -/
theorem decodeFields_toNat (w : Word) :
    (decodeFields w).opcodeClass.toNat = w.toNat / 4096 ∧ (decodeFields w).x.val = w.toNat / 256 % 16 ∧
    (decodeFields w).y.val = w.toNat / 16 % 16 ∧ (decodeFields w).n.toNat = w.toNat % 16 ∧
    (decodeFields w).nn.toNat = w.toNat % 256 ∧ (decodeFields w).nnn.toNat = w.toNat % 4096 := by
  have := w.isLt
  refine ⟨?_, ?_, ?_, ?_, ?_, ?_⟩ <;>
    simp only [decodeFields, BitVec.extractLsb'_toNat, BitVec.val_toFin, Nat.shiftRight_eq_div_pow] <;> omega

/-- The fields of formats XI, XK and Z (R71, R72). -/
theorem decodeFields_formatXI (c x : Nibble) (nn : Byte) :
    (decodeFields (formatXI c x nn)).opcodeClass = c ∧ (decodeFields (formatXI c x nn)).x = x.toFin ∧
    (decodeFields (formatXI c x nn)).nn = nn ∧ (decodeFields (formatXI c x nn)).word = formatXI c x nn := by
  obtain ⟨h1, h2, -, -, h5, -⟩ := decodeFields_toNat (formatXI c x nn)
  rw [formatXI_toNat] at h1 h2 h5
  have := c.isLt; have := x.isLt; have := nn.isLt
  refine ⟨BitVec.eq_of_toNat_eq ?_, Fin.ext ?_, BitVec.eq_of_toNat_eq ?_, rfl⟩
  · omega
  · rw [h2, BitVec.val_toFin]; omega
  · omega

/-- The fields of format XY (R71, R72). -/
theorem decodeFields_formatXY (c x y n : Nibble) :
    (decodeFields (formatXY c x y n)).opcodeClass = c ∧ (decodeFields (formatXY c x y n)).x = x.toFin ∧
    (decodeFields (formatXY c x y n)).y = y.toFin ∧ (decodeFields (formatXY c x y n)).n = n ∧
    (decodeFields (formatXY c x y n)).word = formatXY c x y n := by
  obtain ⟨h1, h2, h3, h4, -, -⟩ := decodeFields_toNat (formatXY c x y n)
  rw [formatXY_toNat] at h1 h2 h3 h4
  have := c.isLt; have := x.isLt; have := y.isLt; have := n.isLt
  refine ⟨BitVec.eq_of_toNat_eq ?_, Fin.ext ?_, Fin.ext ?_, BitVec.eq_of_toNat_eq ?_, rfl⟩
  · omega
  · rw [h2, BitVec.val_toFin]; omega
  · rw [h3, BitVec.val_toFin]; omega
  · omega

/-- The fields of format A (R71, R72). -/
theorem decodeFields_formatA (c : Nibble) (nnn : Addr) :
    (decodeFields (formatA c nnn)).opcodeClass = c ∧ (decodeFields (formatA c nnn)).nnn = nnn ∧
    (decodeFields (formatA c nnn)).x = (nnn.extractLsb' 8 4).toFin ∧
    (decodeFields (formatA c nnn)).word = formatA c nnn := by
  obtain ⟨h1, h2, -, -, -, h6⟩ := decodeFields_toNat (formatA c nnn)
  rw [formatA_toNat] at h1 h2 h6
  have := c.isLt; have := nnn.isLt
  refine ⟨BitVec.eq_of_toNat_eq ?_, BitVec.eq_of_toNat_eq ?_, Fin.ext ?_, rfl⟩
  · omega
  · omega
  · rw [h2, BitVec.val_toFin, BitVec.extractLsb'_toNat, Nat.shiftRight_eq_div_pow]; omega

/-- The high byte in numbers (R57). -/
theorem highByte_toNat (w : Word) : (highByte w).toNat = w.toNat / 256 := by
  have := w.isLt
  simp only [highByte, BitVec.extractLsb'_toNat, Nat.shiftRight_eq_div_pow]; omega

/-- The low byte in numbers (R57). -/
theorem lowByte_toNat (w : Word) : (lowByte w).toNat = w.toNat % 256 := by
  simp only [lowByte, BitVec.extractLsb'_toNat, Nat.shiftRight_eq_div_pow]; omega

/-- A word is its high byte and its low byte (R57). -/
@[simp] theorem wordOfBytes_split (w : Word) : wordOfBytes (highByte w) (lowByte w) = w := by
  apply BitVec.eq_of_toNat_eq
  rw [wordOfBytes_toNat, highByte_toNat, lowByte_toNat]; omega

@[simp] theorem highByte_wordOfBytes (hi lo : Byte) : highByte (wordOfBytes hi lo) = hi := by
  have := lo.isLt
  apply BitVec.eq_of_toNat_eq
  rw [highByte_toNat, wordOfBytes_toNat]; omega

@[simp] theorem lowByte_wordOfBytes (hi lo : Byte) : lowByte (wordOfBytes hi lo) = lo := by
  have := lo.isLt
  apply BitVec.eq_of_toNat_eq
  rw [lowByte_toNat, wordOfBytes_toNat]; omega

/-- A mask of the class and the low `k` bits keeps the class and the word modulo `2 ^ k` (R82). -/
theorem and_mask_toNat (w mask : Word) (k : Nat) (hk : k ≤ 12)
    (hm : ∀ i, i < 16 → mask.getLsbD i = decide (i < k ∨ 12 ≤ i)) :
    (w &&& mask).toNat = w.toNat / 4096 * 4096 + w.toNat % 2 ^ k := by
  apply Nat.eq_of_testBit_eq
  intro i
  have hb : w.toNat % 2 ^ k < 2 ^ 12 :=
    lt_of_lt_of_le (Nat.mod_lt _ (by positivity)) (Nat.pow_le_pow_right (by decide) hk)
  rw [show w.toNat / 4096 * 4096 = 2 ^ 12 * (w.toNat / 2 ^ 12) from Nat.mul_comm _ _, Nat.testBit_two_pow_mul_add _ hb,
    Nat.testBit_div_two_pow, Nat.testBit_mod_two_pow]
  rw [BitVec.testBit_toNat, BitVec.testBit_toNat, BitVec.getLsbD_and]
  by_cases h16 : i < 16
  · rw [hm i h16]
    by_cases h : i < 12
    · have : ¬ 12 ≤ i := by omega
      by_cases hik : i < k <;> simp [h, this, hik]
    · have e : i - 12 + 12 = i := by omega
      have : 12 ≤ i := by omega
      simp [h, e, this, BitVec.testBit_toNat]
  · have h : ¬ i < 12 := by omega
    have e : i - 12 + 12 = i := by omega
    have hz : w.getLsbD i = false := BitVec.getLsbD_of_ge w i (by omega)
    simp [h, e, hz, BitVec.testBit_toNat]

/-- The three masks of the opcode table (R82). -/
theorem and_tableMask_toNat (w : Word) :
    (w &&& 0xF000#16).toNat = w.toNat / 4096 * 4096 ∧
    (w &&& 0xF00F#16).toNat = w.toNat / 4096 * 4096 + w.toNat % 16 ∧
    (w &&& 0xF0FF#16).toNat = w.toNat / 4096 * 4096 + w.toNat % 256 := by
  refine ⟨?_, ?_, ?_⟩
  · rw [and_mask_toNat w _ 0 (by decide) (by decide)]; simp [Nat.mod_one]
  · exact and_mask_toNat w _ 4 (by decide) (by decide)
  · exact and_mask_toNat w _ 8 (by decide) (by decide)

end Sys2Proof
end

