-- ==== Sys2Proof/Laws/Memory.lean ====
section
/-! SUPPORT. The laws of memory: read after write, the bytes of a range, and that every write keeps the canonical form. -/

namespace Sys2Proof.Machine

/-! Cells -/

theorem findCell_append_of_notMem (b : Byte) (m n : List Host.Cell) (a : Nat) (h : ∀ c ∈ m, c.1 ≠ a) :
    findCell b (m ++ n) a = findCell b n a := by
  induction m with
  | nil => rfl
  | cons c m ih =>
    have hc : c.1 ≠ a := h c (by simp)
    obtain ⟨k, v⟩ := c
    simp only [List.cons_append, findCell, if_neg hc]
    exact ih fun c hm => h c (by simp [hm])

/-- Dropping cells of other addresses does not change what is found. -/
theorem findCell_filter (b : Byte) (m n : List Host.Cell) (a : Nat) (p : Host.Cell → Bool)
    (h : ∀ c : Host.Cell, c.1 = a → p c = true) : findCell b (m.filter p ++ n) a = findCell b (m ++ n) a := by
  induction m with
  | nil => rfl
  | cons c m ih =>
    obtain ⟨k, v⟩ := c
    by_cases hk : k = a
    · subst hk
      simp [h (k, v) rfl, findCell]
    · by_cases hp : p (k, v) <;> simp [hp, findCell, hk, ih]

theorem findCell_of_notMem (b : Byte) (m : List Host.Cell) (a : Nat) (h : ∀ c ∈ m, c.1 ≠ a) : findCell b m a = b := by
  have := findCell_append_of_notMem b m [] a h
  simpa [findCell] using this

/-! One byte -/

/-- An unlisted address reads as its reset content. -/
theorem Memory.read_of_notMem (m : Memory) (a : Nat) (h : ∀ c ∈ m.cells, c.1 ≠ a) : m.read a = m.background a :=
  findCell_of_notMem _ _ _ h

/-- The reset content, address by address (R38, R53). -/
theorem Memory.background_font (m : Memory) (j : Nat) (h : j < 80) : m.background (0x050 + j) = m.font[j] := by
  simp [Memory.background, resetByte, h]

/-- Outside the font the reset content is zero (R38, R53). -/
theorem Memory.background_zero (m : Memory) (a : Nat) (h : a < 0x050 ∨ 0x0A0 ≤ a) : m.background a = 0 := by
  unfold Memory.background resetByte
  rw [dif_neg (by simp only [Config.fontBase]; omega)]

@[simp] theorem Memory.write_font (m : Memory) (a : Nat) (b : Byte) : (m.write a b).font = m.font := rfl
@[simp] theorem Memory.write_background (m : Memory) (a a' : Nat) (b : Byte) : (m.write a b).background a' = m.background a' := rfl

theorem Memory.write_cells (m : Memory) (a : Nat) (b : Byte) :
    (m.write a b).cells = m.cells.filter (fun c => c.1 < a) ++
      ((if b = m.background a then [] else [(a, b)]) ++ m.cells.filter (fun c => a < c.1)) := rfl

/-- A read returns what was last written (R59). -/
@[simp] theorem Memory.read_write_same (m : Memory) (a : Nat) (b : Byte) : Memory.read (Memory.write m a b) a = b := by
  show findCell (m.background a) (m.write a b).cells a = b
  rw [Memory.write_cells, findCell_append_of_notMem _ _ _ _ (by simp; intro k b _ hk; omega)]
  by_cases hb : b = m.background a
  · simp only [hb, if_true, List.nil_append]
    exact findCell_of_notMem _ _ _ (by simp; intro k b _ hk; omega)
  · simp [hb, findCell]

/-- A write leaves every other address alone (R59). -/
@[simp] theorem Memory.read_write_other (m : Memory) (a a' : Nat) (b : Byte) (h : a' ≠ a) :
    Memory.read (Memory.write m a b) a' = Memory.read m a' := by
  show findCell (m.background a') (m.write a b).cells a' = findCell (m.background a') m.cells a'
  rw [Memory.write_cells]
  have mid : ∀ n : List Host.Cell,
      findCell (m.background a') ((if b = m.background a then [] else [(a, b)]) ++ n) a' = findCell (m.background a') n a' := by
    intro n
    split
    · rfl
    · simp [findCell, Ne.symm h]
  rcases Nat.lt_or_gt_of_ne h with hlt | hgt
  · have upper : findCell (m.background a')
        ((if b = m.background a then [] else [(a, b)]) ++ m.cells.filter (fun c => a < c.1)) a' = m.background a' := by
      rw [mid]
      exact findCell_of_notMem _ _ _ (by simp; intro k b _ hk; omega)
    have lower := findCell_filter (m.background a') m.cells [] a' (fun c => c.1 < a) (by intro c hc; simp [hc, hlt])
    have split : ∀ p q : List Host.Cell, findCell (m.background a') q a' = m.background a' →
        findCell (m.background a') (p ++ q) a' = findCell (m.background a') (p ++ []) a' := by
      intro p q hq
      induction p with
      | nil => simpa [findCell] using hq
      | cons c p ih => obtain ⟨k, v⟩ := c; simp only [List.cons_append, findCell]; split <;> [rfl; exact ih]
    rw [split _ _ upper, lower]; simp
  · rw [findCell_append_of_notMem _ _ _ _ (by simp; intro k b _ hk; omega), mid]
    have := findCell_filter (m.background a') m.cells [] a' (fun c => a < c.1) (by intro c hc; simp [hc, hgt])
    simpa using this

/-- One address after one write. -/
theorem Memory.read_write (m : Memory) (a a' : Nat) (b : Byte) :
    Memory.read (Memory.write m a b) a' = if a' = a then b else Memory.read m a' := by
  by_cases h : a' = a
  · subst h; simp
  · simp [h]

/-- A write keeps the canonical form. -/
theorem Memory.write_wf {m : Memory} (h : m.wf) {a : Nat} (ha : a ≤ Config.memLast) (b : Byte) : (Memory.write m a b).wf := by
  obtain ⟨hp, hc⟩ := h
  constructor
  · unfold Memory.write
    rw [List.pairwise_append, List.pairwise_append]
    refine ⟨hp.filter _, ⟨?_, hp.filter _, ?_⟩, ?_⟩
    · split <;> simp
    · intro c hc' d hd
      split at hc'
      · simp at hc'
      · simp only [List.mem_singleton] at hc'; subst hc'; simpa using (List.mem_filter.1 hd).2
    · intro c hc' d hd
      have h1 : c.1 < a := by simpa using (List.mem_filter.1 hc').2
      rcases List.mem_append.1 hd with hd | hd
      · split at hd
        · simp at hd
        · simp only [List.mem_singleton] at hd; subst hd; exact h1
      · have h2 : a < d.1 := by simpa using (List.mem_filter.1 hd).2
        omega
  · intro c hm
    unfold Memory.write at hm
    rcases List.mem_append.1 hm with hm | hm
    · exact hc c (List.mem_filter.1 hm).1
    · rcases List.mem_append.1 hm with hm | hm
      · split at hm
        · simp at hm
        · rename_i hb
          simp only [List.mem_singleton] at hm; subst hm; exact ⟨ha, hb⟩
      · exact hc c (List.mem_filter.1 hm).1

/-- The memory reset leaves is in the canonical form, whatever FONT is. -/
theorem Memory.reset_wf (font : Config.Font) : Memory.wf ⟨font, []⟩ := ⟨List.Pairwise.nil, by simp⟩

/-- The range check, in numbers (R51). -/
theorem inMemory_iff (a n : Nat) : inMemory a n = true ↔ n = 0 ∨ a + n ≤ 4096 := by
  simp [inMemory, Config.memLast]

/-- Storing several bytes within the address space keeps the canonical form. -/
theorem Memory.writeBytes_wf {m : Memory} (h : m.wf) (a : Nat) (bytes : List Byte)
    (ha : inMemory a bytes.length = true) : (m.writeBytes a bytes).wf := by
  induction bytes generalizing m a with
  | nil => exact h
  | cons b bs ih =>
    simp only [inMemory_iff, List.length_cons] at ha
    refine ih (Memory.write_wf h (by simp only [Config.memLast]; omega) b) (a + 1) ?_
    rw [inMemory_iff]; omega

/-- No store changes FONT (R8). -/
@[simp] theorem Memory.writeBytes_font (m : Memory) (a : Nat) (bytes : List Byte) : (m.writeBytes a bytes).font = m.font := by
  induction bytes generalizing m a with
  | nil => rfl
  | cons b bs ih => exact ih _ _

@[simp] theorem Memory.readBytes_length (m : Memory) (a n : Nat) : (m.readBytes a n).length = n := by
  induction n generalizing a with
  | zero => rfl
  | succ n ih => simp [Memory.readBytes, ih]

/-- The `j`-th byte of a range (R51). -/
theorem Memory.readBytes_getElem (m : Memory) (a n j : Nat) (h : j < (m.readBytes a n).length) :
    (m.readBytes a n)[j] = m.read (a + j) := by
  induction n generalizing a j with
  | zero => simp [Memory.readBytes] at h
  | succ n ih =>
    cases j with
    | zero => rfl
    | succ j =>
      simp only [Memory.readBytes, List.getElem_cons_succ]
      rw [ih]; congr 1; omega

/-- Any address after several bytes are stored (R52): the bytes from `a` on, the rest as before. -/
theorem Memory.read_writeBytes (m : Memory) (a a' : Nat) (bytes : List Byte) :
    (m.writeBytes a bytes).read a' =
      if h : a ≤ a' ∧ a' - a < bytes.length then bytes[a' - a]'h.2 else m.read a' := by
  induction bytes generalizing m a with
  | nil => simp [Memory.writeBytes]
  | cons b bs ih =>
    simp only [Memory.writeBytes]
    rw [ih, Memory.read_write]
    by_cases h0 : a' = a
    · subst h0
      simp
    · by_cases h1 : a + 1 ≤ a' ∧ a' - (a + 1) < bs.length
      · have h2 : a ≤ a' ∧ a' - a < (b :: bs).length := by simp; omega
        rw [dif_pos h1, dif_pos h2]
        have e : a' - a = (a' - (a + 1)) + 1 := by omega
        simp [e]
      · have h2 : ¬ (a ≤ a' ∧ a' - a < (b :: bs).length) := by simp; omega
        rw [dif_neg h1, dif_neg h2, if_neg h0]

/-- Outside the stored bytes every address reads as before. -/
theorem Memory.read_writeBytes_outside (m : Memory) (a a' : Nat) (bytes : List Byte)
    (h : a' < a ∨ a + bytes.length ≤ a') : (m.writeBytes a bytes).read a' = m.read a' := by
  rw [Memory.read_writeBytes, dif_neg (by omega)]

/-- Everything `memRead` can answer (R51). -/
theorem State.memRead_cases (s : State) (a n : Nat) :
    (inMemory a n = true ∧ s.memRead a n = some (s.mem.readBytes a n)) ∨ (inMemory a n = false ∧ s.memRead a n = none) := by
  unfold State.memRead
  cases inMemory a n <;> simp

/-- Everything `memWrite` can answer (R52). -/
theorem State.memWrite_cases (s : State) (a : Nat) (bytes : List Byte) :
    (inMemory a bytes.length = true ∧ s.memWrite a bytes = some { s with mem := s.mem.writeBytes a bytes }) ∨
    (inMemory a bytes.length = false ∧ s.memWrite a bytes = none) := by
  unfold State.memWrite
  cases inMemory a bytes.length <;> simp

end Sys2Proof.Machine
end

