-- ==== Sys2Proof/Laws/State.lean ====
section
/-! SUPPORT. One lemma per field per named update of the state, true by rfl, and what the accessors read after one. -/

namespace Sys2Proof.Machine

/-! `setReg` -/

@[simp] theorem State.setReg_index (s : State) (x : Reg) (b : Byte) : (s.setReg x b).index = s.index := rfl
@[simp] theorem State.setReg_pc (s : State) (x : Reg) (b : Byte) : (s.setReg x b).pc = s.pc := rfl
@[simp] theorem State.setReg_stack (s : State) (x : Reg) (b : Byte) : (s.setReg x b).stack = s.stack := rfl
@[simp] theorem State.setReg_sp (s : State) (x : Reg) (b : Byte) : (s.setReg x b).sp = s.sp := rfl
@[simp] theorem State.setReg_dt (s : State) (x : Reg) (b : Byte) : (s.setReg x b).dt = s.dt := rfl
@[simp] theorem State.setReg_st (s : State) (x : Reg) (b : Byte) : (s.setReg x b).st = s.st := rfl
@[simp] theorem State.setReg_display (s : State) (x : Reg) (b : Byte) : (s.setReg x b).display = s.display := rfl
@[simp] theorem State.setReg_mem (s : State) (x : Reg) (b : Byte) : (s.setReg x b).mem = s.mem := rfl
@[simp] theorem State.setReg_quirkMode (s : State) (x : Reg) (b : Byte) : (s.setReg x b).quirkMode = s.quirkMode := rfl
@[simp] theorem State.setReg_status (s : State) (x : Reg) (b : Byte) : (s.setReg x b).status = s.status := rfl
@[simp] theorem State.setReg_kwKey (s : State) (x : Reg) (b : Byte) : (s.setReg x b).kwKey = s.kwKey := rfl
@[simp] theorem State.setReg_kwX (s : State) (x : Reg) (b : Byte) : (s.setReg x b).kwX = s.kwX := rfl
@[simp] theorem State.setReg_tickcnt (s : State) (x : Reg) (b : Byte) : (s.setReg x b).tickcnt = s.tickcnt := rfl
@[simp] theorem State.setReg_fault (s : State) (x : Reg) (b : Byte) : (s.setReg x b).fault = s.fault := rfl
@[simp] theorem State.setReg_rateOver60 (s : State) (x : Reg) (b : Byte) : (s.setReg x b).rateOver60 = s.rateOver60 := rfl
@[simp] theorem State.setReg_inputs (s : State) (x : Reg) (b : Byte) : (s.setReg x b).inputs = s.inputs := rfl
@[simp] theorem State.setReg_inputSeq (s : State) (x : Reg) (b : Byte) : (s.setReg x b).inputSeq = s.inputSeq := rfl
@[simp] theorem State.setReg_input (s : State) (x : Reg) (b : Byte) : (s.setReg x b).input = s.input := rfl
@[simp] theorem State.setReg_tickDiv (s : State) (x : Reg) (b : Byte) : (s.setReg x b).tickDiv = s.tickDiv := rfl

/-! `setIndex` -/

@[simp] theorem State.setIndex_v (s : State) (w : Word) : (s.setIndex w).v = s.v := rfl
@[simp] theorem State.setIndex_index (s : State) (w : Word) : (s.setIndex w).index = w := rfl
@[simp] theorem State.setIndex_pc (s : State) (w : Word) : (s.setIndex w).pc = s.pc := rfl
@[simp] theorem State.setIndex_stack (s : State) (w : Word) : (s.setIndex w).stack = s.stack := rfl
@[simp] theorem State.setIndex_sp (s : State) (w : Word) : (s.setIndex w).sp = s.sp := rfl
@[simp] theorem State.setIndex_dt (s : State) (w : Word) : (s.setIndex w).dt = s.dt := rfl
@[simp] theorem State.setIndex_st (s : State) (w : Word) : (s.setIndex w).st = s.st := rfl
@[simp] theorem State.setIndex_display (s : State) (w : Word) : (s.setIndex w).display = s.display := rfl
@[simp] theorem State.setIndex_mem (s : State) (w : Word) : (s.setIndex w).mem = s.mem := rfl
@[simp] theorem State.setIndex_quirkMode (s : State) (w : Word) : (s.setIndex w).quirkMode = s.quirkMode := rfl
@[simp] theorem State.setIndex_status (s : State) (w : Word) : (s.setIndex w).status = s.status := rfl
@[simp] theorem State.setIndex_kwKey (s : State) (w : Word) : (s.setIndex w).kwKey = s.kwKey := rfl
@[simp] theorem State.setIndex_kwX (s : State) (w : Word) : (s.setIndex w).kwX = s.kwX := rfl
@[simp] theorem State.setIndex_tickcnt (s : State) (w : Word) : (s.setIndex w).tickcnt = s.tickcnt := rfl
@[simp] theorem State.setIndex_fault (s : State) (w : Word) : (s.setIndex w).fault = s.fault := rfl
@[simp] theorem State.setIndex_rateOver60 (s : State) (w : Word) : (s.setIndex w).rateOver60 = s.rateOver60 := rfl
@[simp] theorem State.setIndex_inputs (s : State) (w : Word) : (s.setIndex w).inputs = s.inputs := rfl
@[simp] theorem State.setIndex_inputSeq (s : State) (w : Word) : (s.setIndex w).inputSeq = s.inputSeq := rfl
@[simp] theorem State.setIndex_reg (s : State) (w : Word) (r : Reg) : (s.setIndex w).reg r = s.reg r := rfl
@[simp] theorem State.setIndex_input (s : State) (w : Word) : (s.setIndex w).input = s.input := rfl
@[simp] theorem State.setIndex_tickDiv (s : State) (w : Word) : (s.setIndex w).tickDiv = s.tickDiv := rfl

/-! `setDt` -/

@[simp] theorem State.setDt_v (s : State) (b : Byte) : (s.setDt b).v = s.v := rfl
@[simp] theorem State.setDt_index (s : State) (b : Byte) : (s.setDt b).index = s.index := rfl
@[simp] theorem State.setDt_pc (s : State) (b : Byte) : (s.setDt b).pc = s.pc := rfl
@[simp] theorem State.setDt_stack (s : State) (b : Byte) : (s.setDt b).stack = s.stack := rfl
@[simp] theorem State.setDt_sp (s : State) (b : Byte) : (s.setDt b).sp = s.sp := rfl
@[simp] theorem State.setDt_dt (s : State) (b : Byte) : (s.setDt b).dt = b := rfl
@[simp] theorem State.setDt_st (s : State) (b : Byte) : (s.setDt b).st = s.st := rfl
@[simp] theorem State.setDt_display (s : State) (b : Byte) : (s.setDt b).display = s.display := rfl
@[simp] theorem State.setDt_mem (s : State) (b : Byte) : (s.setDt b).mem = s.mem := rfl
@[simp] theorem State.setDt_quirkMode (s : State) (b : Byte) : (s.setDt b).quirkMode = s.quirkMode := rfl
@[simp] theorem State.setDt_status (s : State) (b : Byte) : (s.setDt b).status = s.status := rfl
@[simp] theorem State.setDt_kwKey (s : State) (b : Byte) : (s.setDt b).kwKey = s.kwKey := rfl
@[simp] theorem State.setDt_kwX (s : State) (b : Byte) : (s.setDt b).kwX = s.kwX := rfl
@[simp] theorem State.setDt_tickcnt (s : State) (b : Byte) : (s.setDt b).tickcnt = s.tickcnt := rfl
@[simp] theorem State.setDt_fault (s : State) (b : Byte) : (s.setDt b).fault = s.fault := rfl
@[simp] theorem State.setDt_rateOver60 (s : State) (b : Byte) : (s.setDt b).rateOver60 = s.rateOver60 := rfl
@[simp] theorem State.setDt_inputs (s : State) (b : Byte) : (s.setDt b).inputs = s.inputs := rfl
@[simp] theorem State.setDt_inputSeq (s : State) (b : Byte) : (s.setDt b).inputSeq = s.inputSeq := rfl
@[simp] theorem State.setDt_reg (s : State) (b : Byte) (r : Reg) : (s.setDt b).reg r = s.reg r := rfl
@[simp] theorem State.setDt_input (s : State) (b : Byte) : (s.setDt b).input = s.input := rfl
@[simp] theorem State.setDt_tickDiv (s : State) (b : Byte) : (s.setDt b).tickDiv = s.tickDiv := rfl

/-! `setSt` -/

@[simp] theorem State.setSt_v (s : State) (b : Byte) : (s.setSt b).v = s.v := rfl
@[simp] theorem State.setSt_index (s : State) (b : Byte) : (s.setSt b).index = s.index := rfl
@[simp] theorem State.setSt_pc (s : State) (b : Byte) : (s.setSt b).pc = s.pc := rfl
@[simp] theorem State.setSt_stack (s : State) (b : Byte) : (s.setSt b).stack = s.stack := rfl
@[simp] theorem State.setSt_sp (s : State) (b : Byte) : (s.setSt b).sp = s.sp := rfl
@[simp] theorem State.setSt_dt (s : State) (b : Byte) : (s.setSt b).dt = s.dt := rfl
@[simp] theorem State.setSt_st (s : State) (b : Byte) : (s.setSt b).st = b := rfl
@[simp] theorem State.setSt_display (s : State) (b : Byte) : (s.setSt b).display = s.display := rfl
@[simp] theorem State.setSt_mem (s : State) (b : Byte) : (s.setSt b).mem = s.mem := rfl
@[simp] theorem State.setSt_quirkMode (s : State) (b : Byte) : (s.setSt b).quirkMode = s.quirkMode := rfl
@[simp] theorem State.setSt_status (s : State) (b : Byte) : (s.setSt b).status = s.status := rfl
@[simp] theorem State.setSt_kwKey (s : State) (b : Byte) : (s.setSt b).kwKey = s.kwKey := rfl
@[simp] theorem State.setSt_kwX (s : State) (b : Byte) : (s.setSt b).kwX = s.kwX := rfl
@[simp] theorem State.setSt_tickcnt (s : State) (b : Byte) : (s.setSt b).tickcnt = s.tickcnt := rfl
@[simp] theorem State.setSt_fault (s : State) (b : Byte) : (s.setSt b).fault = s.fault := rfl
@[simp] theorem State.setSt_rateOver60 (s : State) (b : Byte) : (s.setSt b).rateOver60 = s.rateOver60 := rfl
@[simp] theorem State.setSt_inputs (s : State) (b : Byte) : (s.setSt b).inputs = s.inputs := rfl
@[simp] theorem State.setSt_inputSeq (s : State) (b : Byte) : (s.setSt b).inputSeq = s.inputSeq := rfl
@[simp] theorem State.setSt_reg (s : State) (b : Byte) (r : Reg) : (s.setSt b).reg r = s.reg r := rfl
@[simp] theorem State.setSt_input (s : State) (b : Byte) : (s.setSt b).input = s.input := rfl
@[simp] theorem State.setSt_tickDiv (s : State) (b : Byte) : (s.setSt b).tickDiv = s.tickDiv := rfl

/-! `setPc` -/

@[simp] theorem State.setPc_v (s : State) (w : Word) : (s.setPc w).v = s.v := rfl
@[simp] theorem State.setPc_index (s : State) (w : Word) : (s.setPc w).index = s.index := rfl
@[simp] theorem State.setPc_pc (s : State) (w : Word) : (s.setPc w).pc = w := rfl
@[simp] theorem State.setPc_stack (s : State) (w : Word) : (s.setPc w).stack = s.stack := rfl
@[simp] theorem State.setPc_sp (s : State) (w : Word) : (s.setPc w).sp = s.sp := rfl
@[simp] theorem State.setPc_dt (s : State) (w : Word) : (s.setPc w).dt = s.dt := rfl
@[simp] theorem State.setPc_st (s : State) (w : Word) : (s.setPc w).st = s.st := rfl
@[simp] theorem State.setPc_display (s : State) (w : Word) : (s.setPc w).display = s.display := rfl
@[simp] theorem State.setPc_mem (s : State) (w : Word) : (s.setPc w).mem = s.mem := rfl
@[simp] theorem State.setPc_quirkMode (s : State) (w : Word) : (s.setPc w).quirkMode = s.quirkMode := rfl
@[simp] theorem State.setPc_status (s : State) (w : Word) : (s.setPc w).status = s.status := rfl
@[simp] theorem State.setPc_kwKey (s : State) (w : Word) : (s.setPc w).kwKey = s.kwKey := rfl
@[simp] theorem State.setPc_kwX (s : State) (w : Word) : (s.setPc w).kwX = s.kwX := rfl
@[simp] theorem State.setPc_tickcnt (s : State) (w : Word) : (s.setPc w).tickcnt = s.tickcnt := rfl
@[simp] theorem State.setPc_fault (s : State) (w : Word) : (s.setPc w).fault = s.fault := rfl
@[simp] theorem State.setPc_rateOver60 (s : State) (w : Word) : (s.setPc w).rateOver60 = s.rateOver60 := rfl
@[simp] theorem State.setPc_inputs (s : State) (w : Word) : (s.setPc w).inputs = s.inputs := rfl
@[simp] theorem State.setPc_inputSeq (s : State) (w : Word) : (s.setPc w).inputSeq = s.inputSeq := rfl
@[simp] theorem State.setPc_reg (s : State) (w : Word) (r : Reg) : (s.setPc w).reg r = s.reg r := rfl
@[simp] theorem State.setPc_input (s : State) (w : Word) : (s.setPc w).input = s.input := rfl
@[simp] theorem State.setPc_tickDiv (s : State) (w : Word) : (s.setPc w).tickDiv = s.tickDiv := rfl

/-! `setDisplay` -/

@[simp] theorem State.setDisplay_v (s : State) (d : Display) : (s.setDisplay d).v = s.v := rfl
@[simp] theorem State.setDisplay_index (s : State) (d : Display) : (s.setDisplay d).index = s.index := rfl
@[simp] theorem State.setDisplay_pc (s : State) (d : Display) : (s.setDisplay d).pc = s.pc := rfl
@[simp] theorem State.setDisplay_stack (s : State) (d : Display) : (s.setDisplay d).stack = s.stack := rfl
@[simp] theorem State.setDisplay_sp (s : State) (d : Display) : (s.setDisplay d).sp = s.sp := rfl
@[simp] theorem State.setDisplay_dt (s : State) (d : Display) : (s.setDisplay d).dt = s.dt := rfl
@[simp] theorem State.setDisplay_st (s : State) (d : Display) : (s.setDisplay d).st = s.st := rfl
@[simp] theorem State.setDisplay_display (s : State) (d : Display) : (s.setDisplay d).display = d := rfl
@[simp] theorem State.setDisplay_mem (s : State) (d : Display) : (s.setDisplay d).mem = s.mem := rfl
@[simp] theorem State.setDisplay_quirkMode (s : State) (d : Display) : (s.setDisplay d).quirkMode = s.quirkMode := rfl
@[simp] theorem State.setDisplay_status (s : State) (d : Display) : (s.setDisplay d).status = s.status := rfl
@[simp] theorem State.setDisplay_kwKey (s : State) (d : Display) : (s.setDisplay d).kwKey = s.kwKey := rfl
@[simp] theorem State.setDisplay_kwX (s : State) (d : Display) : (s.setDisplay d).kwX = s.kwX := rfl
@[simp] theorem State.setDisplay_tickcnt (s : State) (d : Display) : (s.setDisplay d).tickcnt = s.tickcnt := rfl
@[simp] theorem State.setDisplay_fault (s : State) (d : Display) : (s.setDisplay d).fault = s.fault := rfl
@[simp] theorem State.setDisplay_rateOver60 (s : State) (d : Display) : (s.setDisplay d).rateOver60 = s.rateOver60 := rfl
@[simp] theorem State.setDisplay_inputs (s : State) (d : Display) : (s.setDisplay d).inputs = s.inputs := rfl
@[simp] theorem State.setDisplay_inputSeq (s : State) (d : Display) : (s.setDisplay d).inputSeq = s.inputSeq := rfl
@[simp] theorem State.setDisplay_reg (s : State) (d : Display) (r : Reg) : (s.setDisplay d).reg r = s.reg r := rfl
@[simp] theorem State.setDisplay_input (s : State) (d : Display) : (s.setDisplay d).input = s.input := rfl
@[simp] theorem State.setDisplay_tickDiv (s : State) (d : Display) : (s.setDisplay d).tickDiv = s.tickDiv := rfl

/-! `raise` -/

@[simp] theorem State.raise_v (s : State) (c : FaultCause) (i a w : Word) : (s.raise c i a w).v = s.v := rfl
@[simp] theorem State.raise_index (s : State) (c : FaultCause) (i a w : Word) : (s.raise c i a w).index = s.index := rfl
@[simp] theorem State.raise_pc (s : State) (c : FaultCause) (i a w : Word) : (s.raise c i a w).pc = s.pc := rfl
@[simp] theorem State.raise_stack (s : State) (c : FaultCause) (i a w : Word) : (s.raise c i a w).stack = s.stack := rfl
@[simp] theorem State.raise_sp (s : State) (c : FaultCause) (i a w : Word) : (s.raise c i a w).sp = s.sp := rfl
@[simp] theorem State.raise_dt (s : State) (c : FaultCause) (i a w : Word) : (s.raise c i a w).dt = s.dt := rfl
@[simp] theorem State.raise_st (s : State) (c : FaultCause) (i a w : Word) : (s.raise c i a w).st = s.st := rfl
@[simp] theorem State.raise_display (s : State) (c : FaultCause) (i a w : Word) : (s.raise c i a w).display = s.display := rfl
@[simp] theorem State.raise_mem (s : State) (c : FaultCause) (i a w : Word) : (s.raise c i a w).mem = s.mem := rfl
@[simp] theorem State.raise_quirkMode (s : State) (c : FaultCause) (i a w : Word) : (s.raise c i a w).quirkMode = s.quirkMode := rfl
@[simp] theorem State.raise_status (s : State) (c : FaultCause) (i a w : Word) : (s.raise c i a w).status = .halted := rfl
@[simp] theorem State.raise_kwKey (s : State) (c : FaultCause) (i a w : Word) : (s.raise c i a w).kwKey = s.kwKey := rfl
@[simp] theorem State.raise_kwX (s : State) (c : FaultCause) (i a w : Word) : (s.raise c i a w).kwX = s.kwX := rfl
@[simp] theorem State.raise_tickcnt (s : State) (c : FaultCause) (i a w : Word) : (s.raise c i a w).tickcnt = s.tickcnt := rfl
@[simp] theorem State.raise_fault (s : State) (c : FaultCause) (i a w : Word) : (s.raise c i a w).fault = ⟨c, i, a, w⟩ := rfl
@[simp] theorem State.raise_rateOver60 (s : State) (c : FaultCause) (i a w : Word) : (s.raise c i a w).rateOver60 = s.rateOver60 := rfl
@[simp] theorem State.raise_inputs (s : State) (c : FaultCause) (i a w : Word) : (s.raise c i a w).inputs = s.inputs := rfl
@[simp] theorem State.raise_inputSeq (s : State) (c : FaultCause) (i a w : Word) : (s.raise c i a w).inputSeq = s.inputSeq := rfl
@[simp] theorem State.raise_reg (s : State) (c : FaultCause) (i a w : Word) (r : Reg) : (s.raise c i a w).reg r = s.reg r := rfl
@[simp] theorem State.raise_input (s : State) (c : FaultCause) (i a w : Word) : (s.raise c i a w).input = s.input := rfl
@[simp] theorem State.raise_tickDiv (s : State) (c : FaultCause) (i a w : Word) : (s.raise c i a w).tickDiv = s.tickDiv := rfl

/-! `latchKey` -/

@[simp] theorem State.latchKey_v (s : State) (k : Key) (x : Reg) : (s.latchKey k x).v = s.v := rfl
@[simp] theorem State.latchKey_index (s : State) (k : Key) (x : Reg) : (s.latchKey k x).index = s.index := rfl
@[simp] theorem State.latchKey_pc (s : State) (k : Key) (x : Reg) : (s.latchKey k x).pc = s.pc := rfl
@[simp] theorem State.latchKey_stack (s : State) (k : Key) (x : Reg) : (s.latchKey k x).stack = s.stack := rfl
@[simp] theorem State.latchKey_sp (s : State) (k : Key) (x : Reg) : (s.latchKey k x).sp = s.sp := rfl
@[simp] theorem State.latchKey_dt (s : State) (k : Key) (x : Reg) : (s.latchKey k x).dt = s.dt := rfl
@[simp] theorem State.latchKey_st (s : State) (k : Key) (x : Reg) : (s.latchKey k x).st = s.st := rfl
@[simp] theorem State.latchKey_display (s : State) (k : Key) (x : Reg) : (s.latchKey k x).display = s.display := rfl
@[simp] theorem State.latchKey_mem (s : State) (k : Key) (x : Reg) : (s.latchKey k x).mem = s.mem := rfl
@[simp] theorem State.latchKey_quirkMode (s : State) (k : Key) (x : Reg) : (s.latchKey k x).quirkMode = s.quirkMode := rfl
@[simp] theorem State.latchKey_status (s : State) (k : Key) (x : Reg) : (s.latchKey k x).status = .waitRelease := rfl
@[simp] theorem State.latchKey_kwKey (s : State) (k : Key) (x : Reg) : (s.latchKey k x).kwKey = k := rfl
@[simp] theorem State.latchKey_kwX (s : State) (k : Key) (x : Reg) : (s.latchKey k x).kwX = x := rfl
@[simp] theorem State.latchKey_tickcnt (s : State) (k : Key) (x : Reg) : (s.latchKey k x).tickcnt = s.tickcnt := rfl
@[simp] theorem State.latchKey_fault (s : State) (k : Key) (x : Reg) : (s.latchKey k x).fault = s.fault := rfl
@[simp] theorem State.latchKey_rateOver60 (s : State) (k : Key) (x : Reg) : (s.latchKey k x).rateOver60 = s.rateOver60 := rfl
@[simp] theorem State.latchKey_inputs (s : State) (k : Key) (x : Reg) : (s.latchKey k x).inputs = s.inputs := rfl
@[simp] theorem State.latchKey_inputSeq (s : State) (k : Key) (x : Reg) : (s.latchKey k x).inputSeq = s.inputSeq := rfl
@[simp] theorem State.latchKey_reg (s : State) (k : Key) (x : Reg) (r : Reg) : (s.latchKey k x).reg r = s.reg r := rfl
@[simp] theorem State.latchKey_input (s : State) (k : Key) (x : Reg) : (s.latchKey k x).input = s.input := rfl
@[simp] theorem State.latchKey_tickDiv (s : State) (k : Key) (x : Reg) : (s.latchKey k x).tickDiv = s.tickDiv := rfl

/-! `consumeInput` -/

@[simp] theorem State.consumeInput_v (s : State) : (s.consumeInput).v = s.v := rfl
@[simp] theorem State.consumeInput_index (s : State) : (s.consumeInput).index = s.index := rfl
@[simp] theorem State.consumeInput_pc (s : State) : (s.consumeInput).pc = s.pc := rfl
@[simp] theorem State.consumeInput_stack (s : State) : (s.consumeInput).stack = s.stack := rfl
@[simp] theorem State.consumeInput_sp (s : State) : (s.consumeInput).sp = s.sp := rfl
@[simp] theorem State.consumeInput_dt (s : State) : (s.consumeInput).dt = s.dt := rfl
@[simp] theorem State.consumeInput_st (s : State) : (s.consumeInput).st = s.st := rfl
@[simp] theorem State.consumeInput_display (s : State) : (s.consumeInput).display = s.display := rfl
@[simp] theorem State.consumeInput_mem (s : State) : (s.consumeInput).mem = s.mem := rfl
@[simp] theorem State.consumeInput_quirkMode (s : State) : (s.consumeInput).quirkMode = s.quirkMode := rfl
@[simp] theorem State.consumeInput_status (s : State) : (s.consumeInput).status = s.status := rfl
@[simp] theorem State.consumeInput_kwKey (s : State) : (s.consumeInput).kwKey = s.kwKey := rfl
@[simp] theorem State.consumeInput_kwX (s : State) : (s.consumeInput).kwX = s.kwX := rfl
@[simp] theorem State.consumeInput_tickcnt (s : State) : (s.consumeInput).tickcnt = s.tickcnt := rfl
@[simp] theorem State.consumeInput_fault (s : State) : (s.consumeInput).fault = s.fault := rfl
@[simp] theorem State.consumeInput_rateOver60 (s : State) : (s.consumeInput).rateOver60 = s.rateOver60 := rfl
@[simp] theorem State.consumeInput_inputs (s : State) : (s.consumeInput).inputs = s.inputs.tail := rfl
@[simp] theorem State.consumeInput_inputSeq (s : State) : (s.consumeInput).inputSeq = s.inputSeq + 1 := rfl
@[simp] theorem State.consumeInput_reg (s : State) (r : Reg) : (s.consumeInput).reg r = s.reg r := rfl
@[simp] theorem State.consumeInput_tickDiv (s : State) : (s.consumeInput).tickDiv = s.tickDiv := rfl

/-! `tick` -/

@[simp] theorem State.tick_v (s : State) : (s.tick).v = s.v := rfl
@[simp] theorem State.tick_index (s : State) : (s.tick).index = s.index := rfl
@[simp] theorem State.tick_pc (s : State) : (s.tick).pc = s.pc := rfl
@[simp] theorem State.tick_stack (s : State) : (s.tick).stack = s.stack := rfl
@[simp] theorem State.tick_sp (s : State) : (s.tick).sp = s.sp := rfl
@[simp] theorem State.tick_dt (s : State) : (s.tick).dt = timerDown s.dt := rfl
@[simp] theorem State.tick_st (s : State) : (s.tick).st = timerDown s.st := rfl
@[simp] theorem State.tick_display (s : State) : (s.tick).display = s.display := rfl
@[simp] theorem State.tick_mem (s : State) : (s.tick).mem = s.mem := rfl
@[simp] theorem State.tick_quirkMode (s : State) : (s.tick).quirkMode = s.quirkMode := rfl
@[simp] theorem State.tick_status (s : State) : (s.tick).status = s.status := rfl
@[simp] theorem State.tick_kwKey (s : State) : (s.tick).kwKey = s.kwKey := rfl
@[simp] theorem State.tick_kwX (s : State) : (s.tick).kwX = s.kwX := rfl
@[simp] theorem State.tick_tickcnt (s : State) : (s.tick).tickcnt = s.tickcnt := rfl
@[simp] theorem State.tick_fault (s : State) : (s.tick).fault = s.fault := rfl
@[simp] theorem State.tick_rateOver60 (s : State) : (s.tick).rateOver60 = s.rateOver60 := rfl
@[simp] theorem State.tick_inputs (s : State) : (s.tick).inputs = s.inputs := rfl
@[simp] theorem State.tick_inputSeq (s : State) : (s.tick).inputSeq = s.inputSeq := rfl
@[simp] theorem State.tick_reg (s : State) (r : Reg) : (s.tick).reg r = s.reg r := rfl
@[simp] theorem State.tick_input (s : State) : (s.tick).input = s.input := rfl
@[simp] theorem State.tick_tickDiv (s : State) : (s.tick).tickDiv = s.tickDiv := rfl

/-! Registers -/

@[simp] theorem State.setReg_reg_same (s : State) (x : Reg) (b : Byte) : (s.setReg x b).reg x = b := by
  simp [State.setReg, State.reg, Vector.get_eq_getElem]

@[simp] theorem State.setReg_reg_other (s : State) (x r : Reg) (b : Byte) (h : r ≠ x) :
    (s.setReg x b).reg r = s.reg r := by
  have hv : x.val ≠ r.val := fun e => h (Fin.ext e.symm)
  simp [State.setReg, State.reg, Vector.get_eq_getElem, Vector.getElem_set_ne, hv]

theorem State.setReg_reg (s : State) (x r : Reg) (b : Byte) :
    (s.setReg x b).reg r = if r = x then b else s.reg r := by
  by_cases h : r = x
  · subst h; simp
  · simp [h]

/-- A register write changes no field but `v`. -/
theorem State.setReg_frame (s : State) (x : Reg) (b : Byte) : s.setReg x b = { s with v := (s.setReg x b).v } := rfl

/-- Two states that agree on every register and every other field are equal. -/
theorem State.ext_regs {s t : State} (h : ∀ r, t.reg r = s.reg r) (hf : t = { s with v := t.v }) : t = s := by
  have hv : t.v = s.v := by
    apply Vector.ext
    intro i hi
    have := h ⟨i, hi⟩
    simpa [State.reg, Vector.get_eq_getElem] using this
  rw [hf, hv]

end Sys2Proof.Machine
end

