-- ==== Sys2Proof/Laws/Ops.lean ====
section
/-! SUPPORT. One lemma per shared operation that says everything it can do: the stack, the register runs, the display,
the operands and flags, the timer unit, the key wait. -/

namespace Sys2Proof.Machine

/-! The call stack (R24) -/

/-- Everything `push` can answer (R24). -/
theorem State.push_cases (s : State) (w : Word) :
    (s.sp.val = 16 ∧ s.push w = none) ∨
    (∃ h : s.sp.val < 16, s.push w = some { s with stack := s.stack.set s.sp.val w h, sp := ⟨s.sp.val + 1, by omega⟩ }) := by
  by_cases h : s.sp.val < 16
  · exact .inr ⟨h, by simp [State.push, h]⟩
  · refine .inl ⟨by have := s.sp.isLt; omega, by simp [State.push, h]⟩

/-- Everything `pop` can answer (R24). -/
theorem State.pop_cases (s : State) :
    (s.sp.val = 0 ∧ s.pop = none) ∨
    (∃ h : 0 < s.sp.val, s.pop = some (s.stack.get ⟨s.sp.val - 1, by omega⟩, { s with sp := ⟨s.sp.val - 1, by omega⟩ })) := by
  by_cases h : 0 < s.sp.val
  · exact .inr ⟨h, by simp [State.pop, h]⟩
  · exact .inl ⟨by omega, by simp [State.pop, h]⟩

/-! Runs of registers (R168, R169) -/

@[simp] theorem State.regsUpTo_length (s : State) (x : Reg) : (s.regsUpTo x).length = x.val + 1 := by
  simp [State.regsUpTo]

/-- The `j`-th of `V[0]..V[x]` (R168). -/
theorem State.regsUpTo_getElem (s : State) (x : Reg) (j : Nat) (h : j < (s.regsUpTo x).length) :
    (s.regsUpTo x)[j] = s.reg ⟨j, by have := x.isLt; simp at h; omega⟩ := by
  simp [State.regsUpTo, State.reg, Vector.get_eq_getElem]

/-- Loading a run of registers changes no field but `v` (R169). -/
theorem State.setRegsFrom_frame (s : State) (k : Nat) (bytes : List Byte) :
    s.setRegsFrom k bytes = { s with v := (s.setRegsFrom k bytes).v } := by
  induction bytes generalizing s k with
  | nil => rfl
  | cons b bs ih =>
    simp only [State.setRegsFrom]
    by_cases h : k < 16
    · simp only [h, dite_true]; rw [ih]; rfl
    · simp only [h, dite_false]; exact ih _ _

/-- What each register holds after a run is loaded (R169). -/
theorem State.setRegsFrom_reg (s : State) (k : Nat) (bytes : List Byte) (r : Reg) :
    (s.setRegsFrom k bytes).reg r =
      if h : k ≤ r.val ∧ r.val - k < bytes.length then bytes[r.val - k]'h.2 else s.reg r := by
  induction bytes generalizing s k with
  | nil => simp [State.setRegsFrom]
  | cons b bs ih =>
    simp only [State.setRegsFrom]
    rw [ih]
    by_cases h1 : k + 1 ≤ r.val ∧ r.val - (k + 1) < bs.length
    · have h2 : k ≤ r.val ∧ r.val - k < (b :: bs).length := by simp; omega
      have e : r.val - k = (r.val - (k + 1)) + 1 := by omega
      rw [dif_pos h1, dif_pos h2]; simp [e]
    · rw [dif_neg h1]
      by_cases h0 : r.val = k
      · have hk : k < 16 := h0 ▸ r.isLt
        have hr : r = ⟨k, hk⟩ := Fin.ext h0
        subst hr
        simp [hk]
      · have h2 : ¬ (k ≤ r.val ∧ r.val - k < (b :: bs).length) := by simp; omega
        rw [dif_neg h2]
        by_cases hk : k < 16
        · rw [dif_pos hk, State.setReg_reg_other]; intro hr; exact h0 (by simp [hr])
        · rw [dif_neg hk]

/-! The display (R142, R144) -/

/-- The pixels of a sprite byte: column `cx + k` shows bit `7 - k` (R142). -/
theorem spriteLine_getLsbD (b : Byte) (cx c : Nat) (hc : c < 64) :
    (spriteLine b cx).getLsbD c = (decide (cx ≤ c ∧ c < cx + 8) && b.getLsbD (7 - (c - cx))) := by
  simp only [spriteLine, BitVec.getLsbD_shiftLeft, BitVec.getLsbD_setWidth, BitVec.getLsbD_reverse, BitVec.getMsbD]
  by_cases h1 : cx ≤ c
  · by_cases h2 : c < cx + 8
    · have e1 : ¬ c < cx := by omega
      have e2 : c - cx < 8 := by omega
      have e3 : c - cx < 64 := by omega
      simp [hc, h1, h2, e1, e2, e3]
    · have e2 : ¬ c - cx < 8 := by omega
      simp [hc, h1, h2, e2]
  · have e1 : c < cx := by omega
    have e2 : ¬ (cx ≤ c) := h1
    simp [e1, e2]

/-- One row of the display after rows are drawn (R142). -/
theorem drawRows_row (cx r0 : Nat) (bytes : List Byte) (d : Display) (r : Fin 32) :
    (drawRows cx r0 bytes d).1.get r =
      d.get r ^^^ (if h : r0 ≤ r.val ∧ r.val - r0 < bytes.length then spriteLine (bytes[r.val - r0]'h.2) cx else 0) := by
  induction bytes generalizing r0 d with
  | nil => simp [drawRows]
  | cons b bs ih =>
    by_cases h0 : r0 < 32
    · simp only [drawRows, h0, dite_true]
      rw [ih]
      by_cases he : r.val = r0
      · have h1 : ¬ (r0 + 1 ≤ r.val ∧ r.val - (r0 + 1) < bs.length) := by omega
        have h2 : r0 ≤ r.val ∧ r.val - r0 < (b :: bs).length := by simp; omega
        rw [dif_neg h1, dif_pos h2]
        subst he
        simp [Vector.get_eq_getElem]
      · have hset : (d.set r0 (d[r0] ^^^ spriteLine b cx)).get r = d.get r := by
          have : r0 ≠ r.val := fun e => he e.symm
          simp [Vector.get_eq_getElem, Vector.getElem_set_ne, this]
        rw [hset]
        by_cases h1 : r0 + 1 ≤ r.val ∧ r.val - (r0 + 1) < bs.length
        · have h2 : r0 ≤ r.val ∧ r.val - r0 < (b :: bs).length := by simp; omega
          have e : r.val - r0 = (r.val - (r0 + 1)) + 1 := by omega
          rw [dif_pos h1, dif_pos h2]; simp [e]
        · have h2 : ¬ (r0 ≤ r.val ∧ r.val - r0 < (b :: bs).length) := by simp; omega
          rw [dif_neg h1, dif_neg h2]
    · have hr := r.isLt
      simp only [drawRows, h0, dite_false]
      rw [ih, dif_neg (by omega), dif_neg (by omega)]

/-- Whether a pixel went from 1 to 0 while rows were drawn: some drawn row meets a set pixel (R142). -/
theorem drawRows_hit (cx r0 : Nat) (bytes : List Byte) (d : Display) :
    (drawRows cx r0 bytes d).2 = true ↔
      ∃ r : Fin 32, ∃ h : r0 ≤ r.val ∧ r.val - r0 < bytes.length,
        (d.get r &&& spriteLine (bytes[r.val - r0]'h.2) cx) ≠ 0 := by
  induction bytes generalizing r0 d with
  | nil => simp [drawRows]
  | cons b bs ih =>
    by_cases h0 : r0 < 32
    · simp only [drawRows, h0, dite_true, Bool.or_eq_true, bne_iff_ne, ne_eq]
      rw [ih]
      constructor
      · rintro (hn | ⟨r, hr, hn⟩)
        · refine ⟨⟨r0, h0⟩, ⟨le_refl _, by simp⟩, ?_⟩
          simpa [Vector.get_eq_getElem] using hn
        · refine ⟨r, ⟨by omega, by simp; omega⟩, ?_⟩
          have e : r.val - r0 = (r.val - (r0 + 1)) + 1 := by omega
          have hne : r0 ≠ r.val := by omega
          simpa [e, Vector.get_eq_getElem, Vector.getElem_set_ne, hne] using hn
      · rintro ⟨r, hr, hn⟩
        by_cases he : r.val = r0
        · left
          subst he
          simpa [Vector.get_eq_getElem] using hn
        · right
          have hl : r.val - r0 < bs.length + 1 := by simpa using hr.2
          refine ⟨r, ⟨by omega, by omega⟩, ?_⟩
          have e : r.val - r0 = (r.val - (r0 + 1)) + 1 := by omega
          have hne : r0 ≠ r.val := fun h => he h.symm
          simpa [e, Vector.get_eq_getElem, Vector.getElem_set_ne, hne] using hn
    · simp only [drawRows, h0, dite_false]
      rw [ih]
      constructor
      · rintro ⟨r, hr, -⟩; have := r.isLt; omega
      · rintro ⟨r, hr, -⟩; have := r.isLt; omega

/-- Two displays with the same pixels are equal. -/
theorem Display.ext_pixels {d e : Display} (h : ∀ (r : Fin 32) (c : Nat), c < 64 → d.pixel r c = e.pixel r c) : d = e := by
  apply Vector.ext
  intro i hi
  apply BitVec.eq_of_getLsbD_eq
  intro c hc
  simpa [Display.pixel, Vector.get_eq_getElem] using h ⟨i, hi⟩ c hc

/-- A clear display has no set pixel (R141). -/
@[simp] theorem Display.clear_pixel (r : Fin 32) (c : Nat) : Display.clear.pixel r c = false := by
  simp [Display.clear, Display.pixel, Vector.get_eq_getElem]

/-! Operands and flags -/

@[simp] theorem addrOperand_toNat (nnn : Addr) : (addrOperand nnn).toNat = nnn.toNat := by
  have := nnn.isLt
  simp [addrOperand, BitVec.toNat_setWidth]; omega

@[simp] theorem byteToWord_toNat (b : Byte) : (byteToWord b).toNat = b.toNat := by
  have := b.isLt
  simp [byteToWord, BitVec.toNat_setWidth]; omega

/-- Everything `keyOperand` can answer (R151). -/
theorem keyOperand_cases (b : Byte) :
    (15 < b.toNat ∧ keyOperand b = none) ∨ (∃ k : Key, k.val = b.toNat ∧ keyOperand b = some k) := by
  by_cases h : b.toNat < 16
  · exact .inr ⟨⟨b.toNat, h⟩, rfl, by simp [keyOperand, h]⟩
  · exact .inl ⟨by omega, by simp [keyOperand, h]⟩

@[simp] theorem glyphAddress_toNat (b : Byte) : (glyphAddress b).toNat = 0x050 + 5 * (b.toNat % 16) := by
  simp [glyphAddress, Config.fontBase, Config.glyphBytes]; omega

@[simp] theorem decimalDigits_length (b : Byte) : (decimalDigits b).length = 3 := rfl

@[simp] theorem addFlag_result (a b : Byte) : (addFlag a b).1 = a + b := by
  apply BitVec.eq_of_toNat_eq; simp [addFlag, BitVec.toNat_add]

@[simp] theorem subFlag_result (a b : Byte) : (subFlag a b).1 = a - b := by
  apply BitVec.eq_of_toNat_eq
  have := b.isLt
  simp [subFlag, BitVec.toNat_sub]; omega

/-- What each register holds after a result and its flag (R132). -/
theorem State.setResultFlag_reg (s : State) (x r : Reg) (p : Byte × Bool) :
    (s.setResultFlag x p).reg r = if r = vf then flagByte p.2 else if r = x then p.1 else s.reg r := by
  simp [State.setResultFlag, State.setReg_reg]

/-- A result and its flag change no field but `v`. -/
theorem State.setResultFlag_frame (s : State) (x : Reg) (p : Byte × Bool) :
    s.setResultFlag x p = { s with v := (s.setResultFlag x p).v } := rfl

/-- What each register holds after a logic operation (R124, R132). -/
theorem State.setLogicResult_reg (s : State) (x r : Reg) (b : Byte) :
    (s.setLogicResult x b).reg r =
      if r = vf ∧ s.quirkMode = .legacy then 0 else if r = x then b else s.reg r := by
  cases h : s.quirkMode <;> simp [State.setLogicResult, h, State.setReg_reg]

/-- A logic operation changes no field but `v`. -/
theorem State.setLogicResult_frame (s : State) (x : Reg) (b : Byte) :
    s.setLogicResult x b = { s with v := (s.setLogicResult x b).v } := by
  unfold State.setLogicResult
  split <;> rfl

/-! The timer unit (R196, R197) -/

@[simp] theorem timerDown_toNat (t : Byte) : (timerDown t).toNat = t.toNat - 1 := by
  unfold timerDown
  split
  · have := t.isLt
    simp [BitVec.toNat_sub]; omega
  · omega

/-- The divider is at least 1 (R8). -/
theorem State.tickDiv_pos (s : State) : 0 < s.tickDiv := by
  simp [State.tickDiv, State.instructionRate, Config.minRate, Config.ticksPerSecond]

/-- Everything the timer hook can do (R196). -/
theorem State.timerHook_cases (s : State) :
    (s.tickDiv ≤ s.tickcnt + 1 ∧
      s.timerHook = { s with tickcnt := 0, dt := timerDown s.dt, st := timerDown s.st }) ∨
    (s.tickcnt + 1 < s.tickDiv ∧ s.timerHook = { s with tickcnt := s.tickcnt + 1 }) := by
  by_cases h : s.tickDiv ≤ s.tickcnt + 1
  · exact .inl ⟨h, by simp [State.timerHook, h, State.tick]⟩
  · exact .inr ⟨by omega, by simp [State.timerHook, h]⟩

/-- The hook changes no field but the timer unit's. -/
theorem State.timerHook_frame (s : State) :
    s.timerHook = { s with tickcnt := s.timerHook.tickcnt, dt := s.timerHook.dt, st := s.timerHook.st } := by
  rcases s.timerHook_cases with ⟨-, h⟩ | ⟨-, h⟩ <;> rw [h]

/-- The prescaler stays below the divider (R33). -/
theorem State.timerHook_tickcnt_lt (s : State) : s.timerHook.tickcnt < s.tickDiv := by
  rcases s.timerHook_cases with ⟨-, h⟩ | ⟨hl, h⟩ <;> rw [h]
  · exact s.tickDiv_pos
  · exact hl

/-! The key wait (R96, R153) -/

/-- Everything the poll of WAIT_RELEASE can do (R96). -/
theorem State.pollRelease_cases (s : State) :
    (s.keyReleased s.kwKey = true ∧
      s.pollRelease = State.timerHook { s.setReg s.kwX (BitVec.ofNat 8 s.kwKey.val) with status := .run }) ∨
    (s.keyReleased s.kwKey = false ∧ s.pollRelease = s) := by
  cases h : s.keyReleased s.kwKey
  · exact .inr ⟨rfl, by simp [State.pollRelease, h]⟩
  · exact .inl ⟨rfl, by simp [State.pollRelease, h]⟩

/-- No pressed key is found exactly when none is pressed (R153). -/
theorem State.lowestPressed_none (s : State) : s.lowestPressed = none ↔ ∀ k, s.keyPressed k = false := by
  simp [State.lowestPressed, List.find?_eq_none]

/-- The key found is pressed and no lower one is (R153). -/
theorem State.lowestPressed_some (s : State) (k : Key) :
    s.lowestPressed = some k ↔ s.keyPressed k = true ∧ ∀ j, j < k → s.keyPressed j = false := by
  unfold State.lowestPressed
  rw [List.find?_eq_some_iff_getElem]
  constructor
  · rintro ⟨hk, i, hi, he, hb⟩
    simp only [List.getElem_finRange] at he hb
    refine ⟨hk, fun j hj => ?_⟩
    have := hb j.val (by have : j.val < k.val := hj; have : k.val = i := by rw [← he]; rfl
                         omega)
    simpa using this
  · rintro ⟨hk, hb⟩
    refine ⟨hk, k.val, by simp, by simp, fun j hj => ?_⟩
    have := hb ⟨j, by omega⟩ hj
    simpa using this

end Sys2Proof.Machine
end

