-- ==== Sys2Proof/Laws/Exec.lean ====
section
/-! SUPPORT. `exec` arm by arm, and the meanings that choose between two outcomes, one equation an outcome. -/

namespace Sys2Proof.Machine

/-! The arms of `exec` -/

@[simp] theorem exec_cls (x : Nibble) (s : State) : exec (.cls x) s = execCls x s := rfl
@[simp] theorem exec_ret (x : Nibble) (s : State) : exec (.ret x) s = execRet x s := rfl
@[simp] theorem exec_jp (nnn : Addr) (s : State) : exec (.jp nnn) s = execJp nnn s := rfl
@[simp] theorem exec_call (nnn : Addr) (s : State) : exec (.call nnn) s = execCall nnn s := rfl
@[simp] theorem exec_seImm (x : Reg) (nn : Byte) (s : State) : exec (.seImm x nn) s = execSeImm x nn s := rfl
@[simp] theorem exec_sneImm (x : Reg) (nn : Byte) (s : State) : exec (.sneImm x nn) s = execSneImm x nn s := rfl
@[simp] theorem exec_seReg (x y : Reg) (n : Nibble) (s : State) : exec (.seReg x y n) s = execSeReg x y n s := rfl
@[simp] theorem exec_ldImm (x : Reg) (nn : Byte) (s : State) : exec (.ldImm x nn) s = execLdImm x nn s := rfl
@[simp] theorem exec_addImm (x : Reg) (nn : Byte) (s : State) : exec (.addImm x nn) s = execAddImm x nn s := rfl
@[simp] theorem exec_ldReg (x y : Reg) (s : State) : exec (.ldReg x y) s = execLdReg x y s := rfl
@[simp] theorem exec_orReg (x y : Reg) (s : State) : exec (.orReg x y) s = execOrReg x y s := rfl
@[simp] theorem exec_andReg (x y : Reg) (s : State) : exec (.andReg x y) s = execAndReg x y s := rfl
@[simp] theorem exec_xorReg (x y : Reg) (s : State) : exec (.xorReg x y) s = execXorReg x y s := rfl
@[simp] theorem exec_addReg (x y : Reg) (s : State) : exec (.addReg x y) s = execAddReg x y s := rfl
@[simp] theorem exec_subReg (x y : Reg) (s : State) : exec (.subReg x y) s = execSubReg x y s := rfl
@[simp] theorem exec_shrReg (x y : Reg) (s : State) : exec (.shrReg x y) s = execShrReg x y s := rfl
@[simp] theorem exec_subnReg (x y : Reg) (s : State) : exec (.subnReg x y) s = execSubnReg x y s := rfl
@[simp] theorem exec_shlReg (x y : Reg) (s : State) : exec (.shlReg x y) s = execShlReg x y s := rfl
@[simp] theorem exec_sneReg (x y : Reg) (n : Nibble) (s : State) : exec (.sneReg x y n) s = execSneReg x y n s := rfl
@[simp] theorem exec_ldI (nnn : Addr) (s : State) : exec (.ldI nnn) s = execLdI nnn s := rfl
@[simp] theorem exec_jpV0 (nnn : Addr) (x : Reg) (s : State) : exec (.jpV0 nnn x) s = execJpV0 nnn x s := rfl
@[simp] theorem exec_rnd (x : Reg) (nn : Byte) (s : State) : exec (.rnd x nn) s = execRnd x nn s := rfl
@[simp] theorem exec_drw (x y : Reg) (n : Nibble) (s : State) : exec (.drw x y n) s = execDrw x y n s := rfl
@[simp] theorem exec_skp (x : Reg) (s : State) : exec (.skp x) s = execSkp x s := rfl
@[simp] theorem exec_sknp (x : Reg) (s : State) : exec (.sknp x) s = execSknp x s := rfl
@[simp] theorem exec_ldVxDt (x : Reg) (s : State) : exec (.ldVxDt x) s = execLdVxDt x s := rfl
@[simp] theorem exec_ldVxK (x : Reg) (s : State) : exec (.ldVxK x) s = execLdVxK x s := rfl
@[simp] theorem exec_ldDtVx (x : Reg) (s : State) : exec (.ldDtVx x) s = execLdDtVx x s := rfl
@[simp] theorem exec_ldStVx (x : Reg) (s : State) : exec (.ldStVx x) s = execLdStVx x s := rfl
@[simp] theorem exec_addI (x : Reg) (s : State) : exec (.addI x) s = execAddI x s := rfl
@[simp] theorem exec_ldF (x : Reg) (s : State) : exec (.ldF x) s = execLdF x s := rfl
@[simp] theorem exec_ldB (x : Reg) (s : State) : exec (.ldB x) s = execLdB x s := rfl
@[simp] theorem exec_storeRegs (x : Reg) (s : State) : exec (.storeRegs x) s = execStoreRegs x s := rfl
@[simp] theorem exec_loadRegs (x : Reg) (s : State) : exec (.loadRegs x) s = execLoadRegs x s := rfl

/-! The meanings with two outcomes -/

/-- `RET` with an entry on the stack (R101). -/
theorem exec_ret_next (x : Nibble) (s : State) (h : 0 < s.sp.val) :
    exec (.ret x) s =
      .next { s with pc := s.stack.get ⟨s.sp.val - 1, by omega⟩, sp := ⟨s.sp.val - 1, by omega⟩ } := by
  simp only [exec_ret, execRet, State.pop, h, dite_true]; rfl

/-- `RET` on the empty stack (R101, R184). -/
theorem exec_ret_underflow (x : Nibble) (s : State) (h : s.sp.val = 0) :
    exec (.ret x) s = .next (s.raiseIn (.ret x) .stackUnderflow 0) := by
  have h' : ¬ 0 < s.sp.val := by omega
  simp only [exec_ret, execRet, State.pop, h', dite_false]

/-- `CALL` with room on the stack (R103). -/
theorem exec_call_next (nnn : Addr) (s : State) (h : s.sp.val < 16) :
    exec (.call nnn) s =
      .next { s with pc := addrOperand nnn, stack := s.stack.set s.sp.val s.pc h, sp := ⟨s.sp.val + 1, by omega⟩ } := by
  simp only [exec_call, execCall, State.push, h, dite_true]; rfl

/-- `CALL` on the full stack (R103, R183). -/
theorem exec_call_overflow (nnn : Addr) (s : State) (h : s.sp.val = 16) :
    exec (.call nnn) s = .next (s.raiseIn (.call nnn) .stackOverflow s.pc) := by
  have h' : ¬ s.sp.val < 16 := by omega
  simp only [exec_call, execCall, State.push, h', dite_false]

/-- `SKP` of a key (R151). -/
theorem exec_skp_next (x : Reg) (s : State) (h : (s.reg x).toNat < 16) :
    exec (.skp x) s = .next (s.setPc (if s.input.keyPressed.getLsbD (s.reg x).toNat then s.pc + 2 else s.pc)) := by
  simp only [exec_skp, execSkp, keyOperand, h, dite_true]; rfl

/-- `SKP` of no key (R151, R185). -/
theorem exec_skp_fault (x : Reg) (s : State) (h : 15 < (s.reg x).toNat) :
    exec (.skp x) s = .next (s.raiseIn (.skp x) .keyIndexOutOfRange (byteToWord (s.reg x))) := by
  have h' : ¬ (s.reg x).toNat < 16 := by omega
  simp only [exec_skp, execSkp, keyOperand, h', dite_false]

/-- `SKNP` of a key (R152). -/
theorem exec_sknp_next (x : Reg) (s : State) (h : (s.reg x).toNat < 16) :
    exec (.sknp x) s = .next (s.setPc (if s.input.keyPressed.getLsbD (s.reg x).toNat then s.pc else s.pc + 2)) := by
  simp only [exec_sknp, execSknp, keyOperand, h, dite_true]
  unfold State.skipIf State.keyPressed
  cases s.input.keyPressed.getLsbD (s.reg x).toNat <;> rfl

/-- `SKNP` of no key (R152, R185). -/
theorem exec_sknp_fault (x : Reg) (s : State) (h : 15 < (s.reg x).toNat) :
    exec (.sknp x) s = .next (s.raiseIn (.sknp x) .keyIndexOutOfRange (byteToWord (s.reg x))) := by
  have h' : ¬ (s.reg x).toNat < 16 := by omega
  simp only [exec_sknp, execSknp, keyOperand, h', dite_false]

/-- `LD Vx, K` with no key pressed (R153). -/
theorem exec_ldVxK_none (x : Reg) (s : State) (h : s.lowestPressed = none) :
    exec (.ldVxK x) s = .next (s.setPc s.ownAddress) := by
  simp only [exec_ldVxK, execLdVxK, h]

/-- `LD Vx, K` with a key pressed (R153). -/
theorem exec_ldVxK_some (x : Reg) (s : State) (k : Key) (h : s.lowestPressed = some k) :
    exec (.ldVxK x) s = .next (s.latchKey k x) := by
  simp only [exec_ldVxK, execLdVxK, h]

/-- `DRW` within memory (R142). -/
theorem exec_drw_next (x y : Reg) (n : Nibble) (s : State) (h : inMemory s.index.toNat n.toNat = true) :
    exec (.drw x y n) s =
      .next ((s.setDisplay (drawRows (drawColumn (s.reg x)) (drawRow (s.reg y))
        (s.mem.readBytes s.index.toNat n.toNat) s.display).1).setReg vf
        (flagByte (drawRows (drawColumn (s.reg x)) (drawRow (s.reg y))
          (s.mem.readBytes s.index.toNat n.toNat) s.display).2)) := by
  simp only [exec_drw, execDrw, State.memRead, h, if_true]

/-- `DRW` past the end of memory (R142, R188). -/
theorem exec_drw_fault (x y : Reg) (n : Nibble) (s : State) (h : inMemory s.index.toNat n.toNat = false) :
    exec (.drw x y n) s = .next (s.raiseIn (.drw x y n) .addressOutOfRange s.index) := by
  simp [execDrw, State.memRead, h]

/-- `LD B, Vx` within memory (R167). -/
theorem exec_ldB_next (x : Reg) (s : State) (h : inMemory s.index.toNat 3 = true) :
    exec (.ldB x) s = .next { s with mem := s.mem.writeBytes s.index.toNat (decimalDigits (s.reg x)) } := by
  simp [execLdB, State.memWrite, h]

/-- `LD B, Vx` past the end of memory (R167, R188). -/
theorem exec_ldB_fault (x : Reg) (s : State) (h : inMemory s.index.toNat 3 = false) :
    exec (.ldB x) s = .next (s.raiseIn (.ldB x) .addressOutOfRange s.index) := by
  simp [execLdB, State.memWrite, h]

/-- `LD [I], Vx` within memory (R168). -/
theorem exec_storeRegs_next (x : Reg) (s : State) (h : inMemory s.index.toNat (x.val + 1) = true) :
    exec (.storeRegs x) s =
      .next { s with mem := s.mem.writeBytes s.index.toNat (s.regsUpTo x), index := s.indexAfterBulk x } := by
  simp [execStoreRegs, State.memWrite, h]; rfl

/-- `LD [I], Vx` past the end of memory (R168, R188). -/
theorem exec_storeRegs_fault (x : Reg) (s : State) (h : inMemory s.index.toNat (x.val + 1) = false) :
    exec (.storeRegs x) s = .next (s.raiseIn (.storeRegs x) .addressOutOfRange s.index) := by
  simp [execStoreRegs, State.memWrite, h]

/-- `LD Vx, [I]` within memory (R169). -/
theorem exec_loadRegs_next (x : Reg) (s : State) (h : inMemory s.index.toNat (x.val + 1) = true) :
    exec (.loadRegs x) s =
      .next ((s.setRegsFrom 0 (s.mem.readBytes s.index.toNat (x.val + 1))).setIndex (s.indexAfterBulk x)) := by
  simp [execLoadRegs, State.memRead, h]

/-- `LD Vx, [I]` past the end of memory (R169, R188). -/
theorem exec_loadRegs_fault (x : Reg) (s : State) (h : inMemory s.index.toNat (x.val + 1) = false) :
    exec (.loadRegs x) s = .next (s.raiseIn (.loadRegs x) .addressOutOfRange s.index) := by
  simp [execLoadRegs, State.memRead, h]

end Sys2Proof.Machine
end

