-- ==== Sys2Proof/Laws/PerInstr.lean ====
section
/-! SUPPORT. The family EncodeInRow: the word of every instruction lies in its row of the opcode table (R82), one lemma
per constructor. -/

namespace Sys2Proof.Laws.EncodeInRow

/-- The word of `i` matches its own row, and that row is one of the table's. -/
def Statement (i : Instr) : Prop := i.row.covers (encode i) = true ∧ i.row ∈ opcodeTable

/-- Masking format A with the class mask leaves the class (R82). -/
theorem mask_formatA (c : Nibble) (nnn : Addr) : formatA c nnn &&& 0xF000#16 = formatA c 0 := by
  have := nnn.isLt
  apply BitVec.eq_of_toNat_eq
  rw [(and_tableMask_toNat _).1, formatA_toNat, formatA_toNat]; simp; omega

/-- Masking format XI with the class mask leaves the class (R82). -/
theorem mask_formatXI (c x : Nibble) (nn : Byte) : formatXI c x nn &&& 0xF000#16 = formatXI c 0 0 := by
  have := x.isLt; have := nn.isLt
  apply BitVec.eq_of_toNat_eq
  rw [(and_tableMask_toNat _).1, formatXI_toNat, formatXI_toNat]; simp; omega

/-- Masking formats XK and Z with the class and `nn` mask drops `x` (R82). -/
theorem mask_formatXK (c x : Nibble) (nn : Byte) : formatXI c x nn &&& 0xF0FF#16 = formatXI c 0 nn := by
  have := x.isLt; have := nn.isLt
  apply BitVec.eq_of_toNat_eq
  rw [(and_tableMask_toNat _).2.2, formatXI_toNat, formatXI_toNat]; simp; omega

/-- Masking format XY with the class mask leaves the class (R82). -/
theorem mask_formatXY (c x y n : Nibble) : formatXY c x y n &&& 0xF000#16 = formatXY c 0 0 0 := by
  have := x.isLt; have := y.isLt; have := n.isLt
  apply BitVec.eq_of_toNat_eq
  rw [(and_tableMask_toNat _).1, formatXY_toNat, formatXY_toNat]; simp; omega

/-- Masking format XY with the class and `n` mask drops `x` and `y` (R82). -/
theorem mask_formatXYk (c x y n : Nibble) : formatXY c x y n &&& 0xF00F#16 = formatXY c 0 0 n := by
  have := x.isLt; have := y.isLt; have := n.isLt
  apply BitVec.eq_of_toNat_eq
  rw [(and_tableMask_toNat _).2.1, formatXY_toNat, formatXY_toNat]; simp; omega

theorem cls (x : Nibble) : Statement (.cls x) :=
  ⟨by rw [OpcodeRow.covers, beq_iff_eq]; exact (mask_formatXK ..).trans rfl, by simp only [Instr.row]; decide⟩
theorem ret (x : Nibble) : Statement (.ret x) :=
  ⟨by rw [OpcodeRow.covers, beq_iff_eq]; exact (mask_formatXK ..).trans rfl, by simp only [Instr.row]; decide⟩
theorem jp (nnn : Addr) : Statement (.jp nnn) :=
  ⟨by rw [OpcodeRow.covers, beq_iff_eq]; exact (mask_formatA ..).trans rfl, by simp only [Instr.row]; decide⟩
theorem call (nnn : Addr) : Statement (.call nnn) :=
  ⟨by rw [OpcodeRow.covers, beq_iff_eq]; exact (mask_formatA ..).trans rfl, by simp only [Instr.row]; decide⟩
theorem seImm (x : Reg) (nn : Byte) : Statement (.seImm x nn) :=
  ⟨by rw [OpcodeRow.covers, beq_iff_eq]; exact (mask_formatXI ..).trans rfl, by simp only [Instr.row]; decide⟩
theorem sneImm (x : Reg) (nn : Byte) : Statement (.sneImm x nn) :=
  ⟨by rw [OpcodeRow.covers, beq_iff_eq]; exact (mask_formatXI ..).trans rfl, by simp only [Instr.row]; decide⟩
theorem seReg (x y : Reg) (n : Nibble) : Statement (.seReg x y n) :=
  ⟨by rw [OpcodeRow.covers, beq_iff_eq]; exact (mask_formatXY ..).trans rfl, by simp only [Instr.row]; decide⟩
theorem ldImm (x : Reg) (nn : Byte) : Statement (.ldImm x nn) :=
  ⟨by rw [OpcodeRow.covers, beq_iff_eq]; exact (mask_formatXI ..).trans rfl, by simp only [Instr.row]; decide⟩
theorem addImm (x : Reg) (nn : Byte) : Statement (.addImm x nn) :=
  ⟨by rw [OpcodeRow.covers, beq_iff_eq]; exact (mask_formatXI ..).trans rfl, by simp only [Instr.row]; decide⟩
theorem ldReg (x y : Reg) : Statement (.ldReg x y) :=
  ⟨by rw [OpcodeRow.covers, beq_iff_eq]; exact (mask_formatXYk ..).trans rfl, by simp only [Instr.row]; decide⟩
theorem orReg (x y : Reg) : Statement (.orReg x y) :=
  ⟨by rw [OpcodeRow.covers, beq_iff_eq]; exact (mask_formatXYk ..).trans rfl, by simp only [Instr.row]; decide⟩
theorem andReg (x y : Reg) : Statement (.andReg x y) :=
  ⟨by rw [OpcodeRow.covers, beq_iff_eq]; exact (mask_formatXYk ..).trans rfl, by simp only [Instr.row]; decide⟩
theorem xorReg (x y : Reg) : Statement (.xorReg x y) :=
  ⟨by rw [OpcodeRow.covers, beq_iff_eq]; exact (mask_formatXYk ..).trans rfl, by simp only [Instr.row]; decide⟩
theorem addReg (x y : Reg) : Statement (.addReg x y) :=
  ⟨by rw [OpcodeRow.covers, beq_iff_eq]; exact (mask_formatXYk ..).trans rfl, by simp only [Instr.row]; decide⟩
theorem subReg (x y : Reg) : Statement (.subReg x y) :=
  ⟨by rw [OpcodeRow.covers, beq_iff_eq]; exact (mask_formatXYk ..).trans rfl, by simp only [Instr.row]; decide⟩
theorem shrReg (x y : Reg) : Statement (.shrReg x y) :=
  ⟨by rw [OpcodeRow.covers, beq_iff_eq]; exact (mask_formatXYk ..).trans rfl, by simp only [Instr.row]; decide⟩
theorem subnReg (x y : Reg) : Statement (.subnReg x y) :=
  ⟨by rw [OpcodeRow.covers, beq_iff_eq]; exact (mask_formatXYk ..).trans rfl, by simp only [Instr.row]; decide⟩
theorem shlReg (x y : Reg) : Statement (.shlReg x y) :=
  ⟨by rw [OpcodeRow.covers, beq_iff_eq]; exact (mask_formatXYk ..).trans rfl, by simp only [Instr.row]; decide⟩
theorem sneReg (x y : Reg) (n : Nibble) : Statement (.sneReg x y n) :=
  ⟨by rw [OpcodeRow.covers, beq_iff_eq]; exact (mask_formatXY ..).trans rfl, by simp only [Instr.row]; decide⟩
theorem ldI (nnn : Addr) : Statement (.ldI nnn) :=
  ⟨by rw [OpcodeRow.covers, beq_iff_eq]; exact (mask_formatA ..).trans rfl, by simp only [Instr.row]; decide⟩
theorem jpV0 (nnn : Addr) (x : Reg) : Statement (.jpV0 nnn x) :=
  ⟨by rw [OpcodeRow.covers, beq_iff_eq]; exact (mask_formatA ..).trans rfl, by simp only [Instr.row]; decide⟩
theorem rnd (x : Reg) (nn : Byte) : Statement (.rnd x nn) :=
  ⟨by rw [OpcodeRow.covers, beq_iff_eq]; exact (mask_formatXI ..).trans rfl, by simp only [Instr.row]; decide⟩
theorem drw (x y : Reg) (n : Nibble) : Statement (.drw x y n) :=
  ⟨by rw [OpcodeRow.covers, beq_iff_eq]; exact (mask_formatXY ..).trans rfl, by simp only [Instr.row]; decide⟩
theorem skp (x : Reg) : Statement (.skp x) :=
  ⟨by rw [OpcodeRow.covers, beq_iff_eq]; exact (mask_formatXK ..).trans rfl, by simp only [Instr.row]; decide⟩
theorem sknp (x : Reg) : Statement (.sknp x) :=
  ⟨by rw [OpcodeRow.covers, beq_iff_eq]; exact (mask_formatXK ..).trans rfl, by simp only [Instr.row]; decide⟩
theorem ldVxDt (x : Reg) : Statement (.ldVxDt x) :=
  ⟨by rw [OpcodeRow.covers, beq_iff_eq]; exact (mask_formatXK ..).trans rfl, by simp only [Instr.row]; decide⟩
theorem ldVxK (x : Reg) : Statement (.ldVxK x) :=
  ⟨by rw [OpcodeRow.covers, beq_iff_eq]; exact (mask_formatXK ..).trans rfl, by simp only [Instr.row]; decide⟩
theorem ldDtVx (x : Reg) : Statement (.ldDtVx x) :=
  ⟨by rw [OpcodeRow.covers, beq_iff_eq]; exact (mask_formatXK ..).trans rfl, by simp only [Instr.row]; decide⟩
theorem ldStVx (x : Reg) : Statement (.ldStVx x) :=
  ⟨by rw [OpcodeRow.covers, beq_iff_eq]; exact (mask_formatXK ..).trans rfl, by simp only [Instr.row]; decide⟩
theorem addI (x : Reg) : Statement (.addI x) :=
  ⟨by rw [OpcodeRow.covers, beq_iff_eq]; exact (mask_formatXK ..).trans rfl, by simp only [Instr.row]; decide⟩
theorem ldF (x : Reg) : Statement (.ldF x) :=
  ⟨by rw [OpcodeRow.covers, beq_iff_eq]; exact (mask_formatXK ..).trans rfl, by simp only [Instr.row]; decide⟩
theorem ldB (x : Reg) : Statement (.ldB x) :=
  ⟨by rw [OpcodeRow.covers, beq_iff_eq]; exact (mask_formatXK ..).trans rfl, by simp only [Instr.row]; decide⟩
theorem storeRegs (x : Reg) : Statement (.storeRegs x) :=
  ⟨by rw [OpcodeRow.covers, beq_iff_eq]; exact (mask_formatXK ..).trans rfl, by simp only [Instr.row]; decide⟩
theorem loadRegs (x : Reg) : Statement (.loadRegs x) :=
  ⟨by rw [OpcodeRow.covers, beq_iff_eq]; exact (mask_formatXK ..).trans rfl, by simp only [Instr.row]; decide⟩

end Sys2Proof.Laws.EncodeInRow
end

