-- ==== Sys2Proof/Laws/Step.lean ====
section
/-! SUPPORT. What a meaning and a step can do, said once: `exec_cases` and `step_cases`; the program-counter check in
numbers; a run's first step. -/

namespace Sys2Proof.Machine

/-- The faults a meaning can raise, with the condition of each (R183 to R185, R188). -/
inductive RaisedBy (i : Instr) (s : State) : FaultCause → Word → Prop where
  | overflow (nnn : Addr) (hi : i = .call nnn) (full : s.sp.val = 16) : RaisedBy i s .stackOverflow s.pc
  | underflow (x : Nibble) (hi : i = .ret x) (empty : s.sp.val = 0) : RaisedBy i s .stackUnderflow 0
  | key (x : Reg) (hi : i = .skp x ∨ i = .sknp x) (above : 15 < (s.reg x).toNat) :
      RaisedBy i s .keyIndexOutOfRange (byteToWord (s.reg x))
  | address (outside : inMemory s.index.toNat (accessBytes i) = false) : RaisedBy i s .addressOutOfRange s.index

/-- What every meaning leaves that neither raises nor waits: the fields no instruction writes, memory stored from `I`
within the address space or not at all, the stack with at most one entry more, the advanced `pc`. -/
structure Completed (s t : State) : Prop where
  status : t.status = s.status
  fault : t.fault = s.fault
  kwKey : t.kwKey = s.kwKey
  kwX : t.kwX = s.kwX
  tickcnt : t.tickcnt = s.tickcnt
  quirkMode : t.quirkMode = s.quirkMode
  rateOver60 : t.rateOver60 = s.rateOver60
  inputs : t.inputs = s.inputs
  inputSeq : t.inputSeq = s.inputSeq
  mem : t.mem = s.mem ∨
    ∃ bytes : List Byte, inMemory s.index.toNat bytes.length = true ∧ t.mem = s.mem.writeBytes s.index.toNat bytes
  stack : (t.stack = s.stack ∧ t.sp.val ≤ s.sp.val) ∨
    ∃ h : s.sp.val < 16, t.stack = s.stack.set s.sp.val s.pc h ∧ t.sp.val = s.sp.val + 1

/-- Everything a meaning can do: raise, wait for a key, or complete. -/
theorem exec_cases (i : Instr) (s : State) :
    ∃ t, exec i s = .next t ∧
      ((∃ cause info, RaisedBy i s cause info ∧ t = s.raiseIn i cause info) ∨
        (∃ k x, i = .ldVxK x ∧ t = s.latchKey k x) ∨ Completed s t) := by
  cases i
  case ret x =>
    rcases s.pop_cases with ⟨h0, h⟩ | ⟨h0, h⟩
    · exact ⟨_, by simp only [exec, execRet, h], .inl ⟨_, _, .underflow x rfl h0, rfl⟩⟩
    · exact ⟨_, by simp only [exec, execRet, h]; rfl, .inr (.inr (by constructor <;> simp))⟩
  case call nnn =>
    rcases s.push_cases s.pc with ⟨h0, h⟩ | ⟨h0, h⟩
    · exact ⟨_, by simp only [exec, execCall, h], .inl ⟨_, _, .overflow nnn rfl h0, rfl⟩⟩
    · exact ⟨_, by simp only [exec, execCall, h]; rfl, .inr (.inr (by constructor <;> simp [h0]))⟩
  case drw x y n =>
    rcases s.memRead_cases s.index.toNat n.toNat with ⟨h0, h⟩ | ⟨h0, h⟩
    · exact ⟨_, by simp only [exec, execDrw, h]; rfl, .inr (.inr (by constructor <;> simp))⟩
    · exact ⟨_, by simp only [exec, execDrw, h], .inl ⟨_, _, .address h0, rfl⟩⟩
  case skp x =>
    rcases keyOperand_cases (s.reg x) with ⟨h0, h⟩ | ⟨k, h0, h⟩
    · exact ⟨_, by simp only [exec, execSkp, h], .inl ⟨_, _, .key x (.inl rfl) h0, rfl⟩⟩
    · exact ⟨_, by simp only [exec, execSkp, h]; rfl, .inr (.inr (by constructor <;> simp [State.skipIf]))⟩
  case sknp x =>
    rcases keyOperand_cases (s.reg x) with ⟨h0, h⟩ | ⟨k, h0, h⟩
    · exact ⟨_, by simp only [exec, execSknp, h], .inl ⟨_, _, .key x (.inr rfl) h0, rfl⟩⟩
    · exact ⟨_, by simp only [exec, execSknp, h]; rfl, .inr (.inr (by constructor <;> simp [State.skipIf]))⟩
  case ldVxK x =>
    cases h : s.lowestPressed with
    | none => exact ⟨_, by simp only [exec, execLdVxK, h]; rfl, .inr (.inr (by constructor <;> simp))⟩
    | some k => exact ⟨_, by simp only [exec, execLdVxK, h], .inr (.inl ⟨k, x, rfl, rfl⟩)⟩
  case ldB x =>
    rcases s.memWrite_cases s.index.toNat (decimalDigits (s.reg x)) with ⟨h0, h⟩ | ⟨h0, h⟩
    · refine ⟨_, by simp only [exec, execLdB, h]; rfl, .inr (.inr ?_)⟩
      constructor
      case mem => exact .inr ⟨_, h0, rfl⟩
      all_goals simp
    · exact ⟨_, by simp only [exec, execLdB, h], .inl ⟨_, _, .address h0, rfl⟩⟩
  case storeRegs x =>
    rcases s.memWrite_cases s.index.toNat (s.regsUpTo x) with ⟨h0, h⟩ | ⟨h0, h⟩
    · refine ⟨_, by simp only [exec, execStoreRegs, h]; rfl, .inr (.inr ?_)⟩
      constructor
      case mem => exact .inr ⟨_, h0, rfl⟩
      all_goals simp
    · exact ⟨_, by simp only [exec, execStoreRegs, h],
        .inl ⟨_, _, .address (by simpa [accessBytes] using h0), rfl⟩⟩
  case loadRegs x =>
    rcases s.memRead_cases s.index.toNat (x.val + 1) with ⟨h0, h⟩ | ⟨h0, h⟩
    · refine ⟨_, by simp only [exec, execLoadRegs, h]; rfl, .inr (.inr ?_)⟩
      rw [s.setRegsFrom_frame 0 (s.mem.readBytes s.index.toNat (x.val + 1))]
      constructor <;> simp
    · exact ⟨_, by simp only [exec, execLoadRegs, h], .inl ⟨_, _, .address h0, rfl⟩⟩
  case orReg x y => exact ⟨_, rfl, .inr (.inr (by rw [State.setLogicResult_frame]; constructor <;> simp))⟩
  case andReg x y => exact ⟨_, rfl, .inr (.inr (by rw [State.setLogicResult_frame]; constructor <;> simp))⟩
  case xorReg x y => exact ⟨_, rfl, .inr (.inr (by rw [State.setLogicResult_frame]; constructor <;> simp))⟩
  all_goals
    refine ⟨_, rfl, .inr (.inr ?_)⟩
    constructor <;> simp [State.skipIf, State.setResultFlag]

/-- The program-counter check in numbers (R92). -/
theorem pcLegal_iff (a : Word) : pcLegal a = true ↔ LegalFetch a := by
  have h0 : a.getLsbD 0 = decide (a.toNat % 2 = 1) := by
    simp [BitVec.getLsbD, Nat.testBit_zero]
  simp only [pcLegal, LegalFetch, h0, Bool.and_eq_true, Bool.not_eq_true', decide_eq_false_iff_not, decide_eq_true_eq]
  simp only [Config.loadBase, Config.memLast]
  omega

/-- Past a legal fetch address (R93). -/
theorem State.advance_afterFetch {s : State} (h : LegalFetch s.pc) :
    AfterFetch s.advance.pc ∧ s.advance.pc.toNat = s.pc.toNat + 2 := by
  obtain ⟨h1, h2, h3⟩ := h
  have e : s.advance.pc.toNat = s.pc.toNat + 2 := by
    simp [State.advance, State.setPc, BitVec.toNat_add]; omega
  exact ⟨by unfold AfterFetch; omega, e⟩

/-- After the advance the instruction's own address is where it was fetched (R14). -/
@[simp] theorem State.advance_ownAddress (s : State) : s.advance.ownAddress = s.pc := by
  simp [State.ownAddress, State.advance, State.setPc]

/-- What one requested step makes of a state, before its input sample goes (R91, R96, R97). -/
inductive StepTo (s : State) : State → Prop where
  | halted (hs : s.status = .halted) : StepTo s s
  | poll (hs : s.status = .waitRelease) : StepTo s s.pollRelease
  | badPc (hs : s.status = .run) (hp : ¬ LegalFetch s.pc) : StepTo s s.raiseBadPc
  | unknown (hs : s.status = .run) (hp : LegalFetch s.pc) (e : Reject) (hd : decodeWord s.fetchWord = .error e) :
      StepTo s (s.advance.raiseUnknown s.fetchWord)
  | run (hs : s.status = .run) (hp : LegalFetch s.pc) (i : Instr) (u : State) (hd : decodeWord s.fetchWord = .ok i)
      (hu : exec i s.advance = .next u) : StepTo s u.retire

/-- Everything a step can do (R90, R91, R96, R97). -/
theorem step_cases (s : State) :
    ∃ t, step s = .next t.consumeInput ∧ ((¬ s.Requested ∧ t = s) ∨ (s.Requested ∧ StepTo s t)) := by
  unfold step stepWith requestedStepWith runStepWith State.Requested
  cases hr : s.input.stepEn
  · exact ⟨s, by simp, .inl (by simp)⟩
  · cases hs : s.status with
    | halted => exact ⟨s, by simp [mapNext], .inr ⟨rfl, .halted hs⟩⟩
    | waitRelease => exact ⟨s.pollRelease, by simp [mapNext], .inr ⟨rfl, .poll hs⟩⟩
    | run =>
      by_cases hp : pcLegal s.pc = true
      · have hp' := (pcLegal_iff _).1 hp
        cases hd : decodeWord s.fetchWord with
        | error e => exact ⟨_, by simp [mapNext, hp], .inr ⟨rfl, .unknown hs hp' e hd⟩⟩
        | ok i =>
          obtain ⟨u, hu, -⟩ := exec_cases i s.advance
          exact ⟨_, by simp [mapNext, hp, hu], .inr ⟨rfl, .run hs hp' i u hd hu⟩⟩
      · exact ⟨_, by simp [mapNext, hp], .inr ⟨rfl, .badPc hs fun h => hp ((pcLegal_iff _).2 h)⟩⟩

/-- The loader's bound in numbers (R212). -/
theorem imageFits_iff (image : List Byte) : imageFits image = true ↔ image.length ≤ 3216 := by
  simp only [imageFits, decide_eq_true_eq]
  simp only [Config.loadBase, Config.loadLast]
  omega

/-- A run of no step. -/
theorem run_zero (s : State) : Host.Core.run core 0 s = .next s := rfl

/-- A run's first step. -/
theorem run_succ (k : Nat) {s t : State} (h : step s = .next t) :
    Host.Core.run core (k + 1) s = Host.Core.run core k t := by
  have h' : core.step s = .next t := h
  simp only [Host.Core.run, h']

end Sys2Proof.Machine
end

