-- ==== Sys2Proof/Tests/Slice0.lean ====
section
/-! SUPPORT. The model's own tests: the checks of WellFormed, words written out from the spec's encodings, one-step tests
with the values of 95_test_vectors.md, and a witness of the hypotheses of every statement that has some. -/

namespace Sys2Proof.Tests.Slice0

open Sys2Proof Sys2Proof.Machine

/-! WellFormed and the canonical spellings (R72, R77) -/

theorem test_wellFormed_refuses_jpV0_with_another_x : (Instr.jpV0 0x200 3).wellFormed = false := by decide
theorem test_wellFormed_accepts_jpV0 : (Instr.jpV0 0x300 3).wellFormed = true := by decide
theorem test_canonical_refuses_cls_digit : (Instr.cls 1).canonical = false := by decide
theorem test_canonical_refuses_ret_digit : (Instr.ret 1).canonical = false := by decide
theorem test_canonical_refuses_seReg_digit : (Instr.seReg 0 0 1).canonical = false := by decide
theorem test_canonical_refuses_sneReg_digit : (Instr.sneReg 0 0 1).canonical = false := by decide

/-! Words from the patterns of R76 and from 95_test_vectors.md section 2 -/

theorem test_decode_cls : decodeTableWord 16 0x00E0 = some (.cls 0) := by decide
theorem test_decode_cls_ignored_digit : decodeTableWord 16 0x0AE0 = some (.cls 0xA) := by decide
theorem test_decode_ret : decodeTableWord 16 0x00EE = some (.ret 0) := by decide
theorem test_decode_ret_ignored_digit : decodeTableWord 16 0x0AEE = some (.ret 0xA) := by decide
theorem test_decode_jp : decodeTableWord 16 0x1ABC = some (.jp 0xABC) := by decide
theorem test_decode_call : decodeTableWord 16 0x2300 = some (.call 0x300) := by decide
theorem test_decode_seImm : decodeTableWord 16 0x3A05 = some (.seImm 0xA 0x05) := by decide
theorem test_decode_sneImm : decodeTableWord 16 0x4A05 = some (.sneImm 0xA 0x05) := by decide
theorem test_decode_seReg : decodeTableWord 16 0x5AB3 = some (.seReg 0xA 0xB 3) := by decide
theorem test_decode_ldImm : decodeTableWord 16 0x6FFF = some (.ldImm 0xF 0xFF) := by decide
theorem test_decode_addImm : decodeTableWord 16 0x7A02 = some (.addImm 0xA 0x02) := by decide
theorem test_decode_ldReg : decodeTableWord 16 0x8120 = some (.ldReg 1 2) := by decide
theorem test_decode_orReg : decodeTableWord 16 0x8121 = some (.orReg 1 2) := by decide
theorem test_decode_andReg : decodeTableWord 16 0x8F12 = some (.andReg 0xF 1) := by decide
theorem test_decode_xorReg : decodeTableWord 16 0x8113 = some (.xorReg 1 1) := by decide
theorem test_decode_addReg : decodeTableWord 16 0x8AB4 = some (.addReg 0xA 0xB) := by decide
theorem test_decode_subReg : decodeTableWord 16 0x8125 = some (.subReg 1 2) := by decide
theorem test_decode_shrReg : decodeTableWord 16 0x8126 = some (.shrReg 1 2) := by decide
theorem test_decode_subnReg : decodeTableWord 16 0x8127 = some (.subnReg 1 2) := by decide
theorem test_decode_shlReg : decodeTableWord 16 0x812E = some (.shlReg 1 2) := by decide
theorem test_decode_sneReg : decodeTableWord 16 0x9120 = some (.sneReg 1 2 0) := by decide
theorem test_decode_ldI : decodeTableWord 16 0xA050 = some (.ldI 0x050) := by decide
theorem test_decode_jpV0 : decodeTableWord 16 0xB2FF = some (.jpV0 0x2FF 2) := by decide
theorem test_decode_rnd : decodeTableWord 16 0xC30F = some (.rnd 3 0x0F) := by decide
theorem test_decode_drw : decodeTableWord 16 0xD9A7 = some (.drw 9 0xA 7) := by decide
theorem test_decode_skp : decodeTableWord 16 0xE19E = some (.skp 1) := by decide
theorem test_decode_sknp : decodeTableWord 16 0xE1A1 = some (.sknp 1) := by decide
theorem test_decode_ldVxDt : decodeTableWord 16 0xF507 = some (.ldVxDt 5) := by decide
theorem test_decode_ldVxK : decodeTableWord 16 0xF30A = some (.ldVxK 3) := by decide
theorem test_decode_ldDtVx : decodeTableWord 16 0xF515 = some (.ldDtVx 5) := by decide
theorem test_decode_ldStVx : decodeTableWord 16 0xF518 = some (.ldStVx 5) := by decide
theorem test_decode_addI : decodeTableWord 16 0xF31E = some (.addI 3) := by decide
theorem test_decode_ldF : decodeTableWord 16 0xF029 = some (.ldF 0) := by decide
theorem test_decode_ldB : decodeTableWord 16 0xF333 = some (.ldB 3) := by decide
theorem test_decode_storeRegs : decodeTableWord 16 0xF355 = some (.storeRegs 3) := by decide
theorem test_decode_loadRegs : decodeTableWord 16 0xF365 = some (.loadRegs 3) := by decide
theorem test_decode_rejects_0000 : decodeTableWord 16 0x0000 = none := by decide
theorem test_decode_rejects_00E1 : decodeTableWord 16 0x00E1 = none := by decide
theorem test_decode_rejects_8AB8 : decodeTableWord 16 0x8AB8 = none := by decide
theorem test_decode_rejects_E19F : decodeTableWord 16 0xE19F = none := by decide
theorem test_decode_rejects_F31F : decodeTableWord 16 0xF31F = none := by decide
theorem test_decode_truncated : decode [0x12] = .error .truncated := rfl
theorem test_encode_bytes_big_endian : encodeBytes (.drw 9 0xA 7) = [0xD9, 0xA7] := by decide

/-! One step each, with the values of 95_test_vectors.md sections 3 to 9 (the id is in the name) -/

/-- A machine after reset with TICK_DIV `d + 1` and some registers set. -/
def machine (q : QuirkMode) (d : Nat) (regs : List (Reg × Byte)) : State :=
  regs.foldl (fun s r => s.setReg r.1 r.2) (State.resetWith q (60 * d) Config.font)

/-- `s` with one scheduled sample that requests a step. -/
def given (s : State) (pressed released : BitVec 16) (rnd : Byte) : State :=
  { s with inputs := [⟨true, pressed, released, rnd⟩] }

/-- `s` with bytes stored from `a`. -/
def poke (s : State) (a : Nat) (bytes : List Byte) : State := { s with mem := s.mem.writeBytes a bytes }

/-- `s` with one pixel set. -/
def lit (s : State) (r : Fin 32) (c : Nat) : State :=
  { s with display := s.display.set r.val (s.display.get r ||| (1 <<< c)) r.isLt }

/-- Whether the step that runs `w` answers a next state with `p`. -/
def runs (s : State) (w : Word) (p : State → Bool) : Bool :=
  match step (s.placeWord w) with
  | .next t => p t
  | .fault _ => false
  | .refused _ => false

theorem test_ret_T_FLOW_1 : runs { (machine .legacy 8 []) with pc := 0x300, sp := 2, stack := #v[0x0204, 0x0380, 0, 0, 0, 0, 0, 0, 0, 0, 0, 0, 0, 0, 0, 0] } 0x00EE (fun t => t.pc == 0x0380 && t.sp == 1) = true := by decide
theorem test_ret_T_FLOW_2 : runs { (machine .legacy 8 []) with pc := 0x300 } 0x00EE (fun t => t.fault == ⟨.stackUnderflow, 0x0000, 0x0300, 0x00EE⟩ && t.pc == 0x0302) = true := by decide
theorem test_jp_T_FLOW_4 : runs (machine .legacy 8 []) 0x1ABC (fun t => t.pc == 0x0ABC) = true := by decide
theorem test_call_T_FLOW_6 : runs { (machine .legacy 8 []) with pc := 0x202, sp := 15 } 0x2300 (fun t => t.pc == 0x0300 && t.sp == 16 && t.stack.get 15 == 0x0204) = true := by decide
theorem test_call_T_FLOW_7 : runs { (machine .legacy 8 []) with pc := 0x202, sp := 16 } 0x2300 (fun t => t.fault == ⟨.stackOverflow, 0x0204, 0x0202, 0x2300⟩ && t.pc == 0x0204 && t.status == .halted) = true := by decide
theorem test_jpV0_T_FLOW_8 : runs (machine .legacy 8 [(0, 0x04), (3, 0x10)]) 0xB300 (fun t => t.pc == 0x0304) = true := by decide
theorem test_jpV0_T_FLOW_9 : runs (machine .modern 8 [(0, 0x04), (3, 0x10)]) 0xB300 (fun t => t.pc == 0x0310) = true := by decide
theorem test_seImm_T_FLOW_11 : runs (machine .legacy 8 [(0xA, 0x05)]) 0x3A05 (fun t => t.pc == 0x0204) = true := by decide
theorem test_sneImm_T_FLOW_14 : runs (machine .legacy 8 [(0xA, 0x06)]) 0x4A05 (fun t => t.pc == 0x0204) = true := by decide
theorem test_seReg_T_FLOW_15 : runs (machine .legacy 8 [(1, 0x7F), (2, 0x7F)]) 0x5127 (fun t => t.pc == 0x0204) = true := by decide
theorem test_sneReg_T_FLOW_16 : runs (machine .legacy 8 [(1, 0x01), (2, 0x02)]) 0x9120 (fun t => t.pc == 0x0204) = true := by decide
theorem test_sneReg_T_FLOW_17 : runs (machine .legacy 8 [(1, 0x01)]) 0x9110 (fun t => t.pc == 0x0202) = true := by decide
theorem test_ldImm_T_ALU_1 : runs (machine .legacy 8 []) 0x6FFF (fun t => t.reg 0xF == 0xFF && t.pc == 0x0202) = true := by decide
theorem test_addImm_T_ALU_2 : runs (machine .legacy 8 [(0xA, 0xFF), (0xF, 0x55)]) 0x7A02 (fun t => t.reg 0xA == 0x01 && t.reg 0xF == 0x55) = true := by decide
theorem test_ldReg_T_ALU_3 : runs (machine .legacy 8 [(2, 0x3C)]) 0x8120 (fun t => t.reg 1 == 0x3C) = true := by decide
theorem test_orReg_T_ALU_4 : runs (machine .legacy 8 [(1, 0x0F), (2, 0xF0), (0xF, 0x01)]) 0x8121 (fun t => t.reg 1 == 0xFF && t.reg 0xF == 0x00) = true := by decide
theorem test_orReg_T_ALU_5 : runs (machine .modern 8 [(1, 0x0F), (2, 0xF0), (0xF, 0x01)]) 0x8121 (fun t => t.reg 1 == 0xFF && t.reg 0xF == 0x01) = true := by decide
theorem test_andReg_T_ALU_6 : runs (machine .legacy 8 [(1, 0x3C), (0xF, 0xFF)]) 0x8F12 (fun t => t.reg 0xF == 0x00) = true := by decide
theorem test_andReg_T_ALU_7 : runs (machine .modern 8 [(1, 0x3C), (0xF, 0xFF)]) 0x8F12 (fun t => t.reg 0xF == 0x3C) = true := by decide
theorem test_xorReg_T_ALU_8 : runs (machine .modern 8 [(1, 0xA5), (0xF, 0x01)]) 0x8113 (fun t => t.reg 1 == 0x00 && t.reg 0xF == 0x01) = true := by decide
theorem test_addReg_T_ALU_9 : runs (machine .legacy 8 [(1, 0xFF), (2, 0x01)]) 0x8124 (fun t => t.reg 1 == 0x00 && t.reg 0xF == 0x01) = true := by decide
theorem test_addReg_T_ALU_11 : runs (machine .legacy 8 [(1, 0x20), (0xF, 0xF0)]) 0x8F14 (fun t => t.reg 0xF == 0x01) = true := by decide
theorem test_subReg_T_ALU_13 : runs (machine .legacy 8 [(1, 0x01), (2, 0x02)]) 0x8125 (fun t => t.reg 1 == 0xFF && t.reg 0xF == 0x00) = true := by decide
theorem test_subReg_T_ALU_14 : runs (machine .legacy 8 [(1, 0x42), (2, 0x42), (0xF, 0x01)]) 0x8125 (fun t => t.reg 1 == 0x00 && t.reg 0xF == 0x00) = true := by decide
theorem test_subnReg_T_ALU_16 : runs (machine .legacy 8 [(1, 0x02), (2, 0x05)]) 0x8127 (fun t => t.reg 1 == 0x03 && t.reg 0xF == 0x01) = true := by decide
theorem test_subnReg_T_ALU_17 : runs (machine .legacy 8 [(1, 0x05), (2, 0x02), (0xF, 0x01)]) 0x8127 (fun t => t.reg 1 == 0xFD && t.reg 0xF == 0x00) = true := by decide
theorem test_shrReg_T_ALU_19 : runs (machine .legacy 8 [(1, 0x03), (2, 0x08)]) 0x8126 (fun t => t.reg 1 == 0x04 && t.reg 0xF == 0x00 && t.reg 2 == 0x08) = true := by decide
theorem test_shrReg_T_ALU_24 : runs (machine .modern 8 [(1, 0x02), (0xF, 0x05)]) 0x8F16 (fun t => t.reg 0xF == 0x01) = true := by decide
theorem test_shlReg_T_ALU_21 : runs (machine .legacy 8 [(1, 0x81), (2, 0x40)]) 0x812E (fun t => t.reg 1 == 0x80 && t.reg 0xF == 0x00) = true := by decide
theorem test_shlReg_T_ALU_22 : runs (machine .modern 8 [(1, 0x81), (2, 0x40)]) 0x812E (fun t => t.reg 1 == 0x02 && t.reg 0xF == 0x01) = true := by decide
theorem test_rnd_T_ALU_26 : runs (given (machine .legacy 8 []) 0 0 0xA7) 0xC30F (fun t => t.reg 3 == 0x07) = true := by decide
theorem test_cls_T_DRW_11 : runs (lit (lit (machine .legacy 8 [(0xF, 0x01)]) 0 0) 31 63) 0x00E0 (fun t => t.display == Display.clear && t.reg 0xF == 0x01) = true := by decide
theorem test_drw_T_DRW_3 : runs (poke { (machine .legacy 8 [(0, 0xFF), (1, 0xFE)]) with index := 0x300 } 0x300 [0x80, 0x80, 0x80]) 0xD013 (fun t => t.display == ((Display.clear.set 30 (1 <<< 63)).set 31 (1 <<< 63)) && t.reg 0xF == 0x00) = true := by decide
theorem test_drw_T_DRW_5 : runs (lit (poke { (machine .legacy 8 []) with index := 0x300 } 0x300 [0xC0]) 0 1) 0xD011 (fun t => t.display == (Display.clear.set 0 1) && t.reg 0xF == 0x01) = true := by decide
theorem test_skp_T_KEY_1 : runs (given (machine .legacy 8 [(1, 0x0A)]) 0x0400 0 0) 0xE19E (fun t => t.pc == 0x0204) = true := by decide
theorem test_skp_T_KEY_6 : runs (given (machine .legacy 8 [(1, 0x10)]) 0xFFFF 0 0) 0xE19E (fun t => t.fault == ⟨.keyIndexOutOfRange, 0x0010, 0x0200, 0xE19E⟩ && t.pc == 0x0202) = true := by decide
theorem test_sknp_T_KEY_4 : runs (given (machine .legacy 8 [(1, 0x0A)]) 0x0400 0 0) 0xE1A1 (fun t => t.pc == 0x0202) = true := by decide
theorem test_sknp_T_KEY_5 : runs (given (machine .legacy 8 [(1, 0x0A)]) 0x0000 0 0) 0xE1A1 (fun t => t.pc == 0x0204) = true := by decide
theorem test_ldVxK_T_KEY_8 : runs (given { (machine .legacy 0 []) with dt := 5 } 0x0000 0xFFFF 0) 0xF30A (fun t => t.pc == 0x0200 && t.dt == 4 && t.status == .run && t.reg 3 == 0) = true := by decide
theorem test_ldVxK_T_KEY_9 : runs (given { (machine .legacy 0 []) with dt := 5 } 0x0180 0 0) 0xF30A (fun t => t.pc == 0x0202 && t.status == .waitRelease && t.kwKey == 7 && t.kwX == 3 && t.dt == 5 && t.reg 3 == 0) = true := by decide
theorem test_ldI_T_TIM_1 : runs { (machine .legacy 8 []) with index := 0xFFFF } 0xA050 (fun t => t.index == 0x0050) = true := by decide
theorem test_addI_T_TIM_2 : runs { (machine .legacy 8 [(2, 0x05)]) with index := 0x0FFE } 0xF21E (fun t => t.index == 0x1003 && t.reg 0xF == 0x01) = true := by decide
theorem test_addI_T_TIM_4 : runs { (machine .legacy 8 [(2, 0x01)]) with index := 0xFFFF } 0xF21E (fun t => t.index == 0x0000 && t.reg 0xF == 0x01) = true := by decide
theorem test_ldF_T_TIM_6 : runs (machine .legacy 8 [(0, 0xF3)]) 0xF029 (fun t => t.index == 0x005F) = true := by decide
theorem test_ldB_T_TIM_9 : runs { (machine .legacy 8 [(3, 0xFF)]) with index := 0x0FFD } 0xF333 (fun t => t.mem.readBytes 0xFFD 3 == [0x02, 0x05, 0x05]) = true := by decide
theorem test_ldB_T_TIM_10 : runs { (machine .legacy 8 [(3, 0x07)]) with index := 0x0FFE } 0xF333 (fun t => t.fault == ⟨.addressOutOfRange, 0x0FFE, 0x0200, 0xF333⟩ && t.mem.read 0xFFE == 0) = true := by decide
theorem test_storeRegs_T_TIM_11 : runs { (machine .legacy 8 [(0, 0x11), (1, 0x22), (2, 0x33), (3, 0x44), (4, 0x55)]) with index := 0x0400 } 0xF355 (fun t => t.mem.readBytes 0x400 5 == [0x11, 0x22, 0x33, 0x44, 0x00] && t.index == 0x0404) = true := by decide
theorem test_storeRegs_T_TIM_16 : runs { (machine .legacy 8 [(0, 0xAB)]) with index := 0x0FFF } 0xF155 (fun t => t.fault == ⟨.addressOutOfRange, 0x0FFF, 0x0200, 0xF155⟩ && t.mem.read 0xFFF == 0 && t.index == 0x0FFF) = true := by decide
theorem test_loadRegs_T_TIM_14 : runs (poke { (machine .modern 8 []) with index := 0x0400 } 0x400 [0x11, 0x22, 0x33, 0x44, 0x55]) 0xF365 (fun t => t.reg 0 == 0x11 && t.reg 3 == 0x44 && t.reg 4 == 0x00 && t.index == 0x0400) = true := by decide
theorem test_loadRegs_T_TIM_17 : runs { (machine .modern 8 []) with index := 0x0050 } 0xFF65 (fun t => t.v.toList == [0xF0, 0x90, 0x90, 0x90, 0xF0, 0x20, 0x60, 0x20, 0x20, 0x70, 0xF0, 0x10, 0xF0, 0x80, 0xF0, 0xF0]) = true := by decide
theorem test_ldVxDt_T_TIM_18 : runs { (machine .legacy 3 []) with dt := 0x2A, tickcnt := 3 } 0xF507 (fun t => t.reg 5 == 0x2A && t.dt == 0x29 && t.tickcnt == 0) = true := by decide
theorem test_ldDtVx_T_TIM_19 : runs { (machine .legacy 3 [(5, 0x05)]) with tickcnt := 3 } 0xF515 (fun t => t.dt == 0x04 && t.tickcnt == 0) = true := by decide
theorem test_ldStVx_T_TIM_20 : runs { (machine .legacy 3 [(5, 0x02)]) with dt := 0x01 } 0xF518 (fun t => t.st == 0x02 && t.dt == 0x01 && t.tickcnt == 1) = true := by decide
theorem test_unknown_T_FLT_1 : runs (machine .legacy 8 []) 0x0000 (fun t => t.fault == ⟨.unknownInstruction, 0x0000, 0x0200, 0x0000⟩ && t.pc == 0x0202) = true := by decide

/-- T-FLT-6: an odd `pc` at the start of a step. -/
theorem test_badPc_T_FLT_6 :
    (match step { machine .legacy 8 [] with pc := 0x0201 } with
      | .next t => t.fault == ⟨.badProgramCounter, 0x0201, 0x0201, 0x0000⟩ && t.pc == 0x0201
      | .fault _ => false
      | .refused _ => false) = true := by decide

/-- T-KEY-3, step 8: the release of the latched key. -/
theorem test_release_T_KEY_3 :
    (match step (given { machine .legacy 0 [] with pc := 0x202, status := .waitRelease, kwKey := 5, kwX := 3, dt := 0x11 } 0 0x0020 0) with
      | .next t => t.pc == 0x0202 && t.status == .run && t.dt == 0x10 && t.reg 3 == 0x05
      | .fault _ => false
      | .refused _ => false) = true := by decide

theorem test_boot_refuses_a_slow_rate : boot .legacy 59 Config.font [] = .refused .instructionRateBelow60 := rfl

/-- FONT is an argument (R8, R54): another table is what memory holds at 0x050 and 0x09F. -/
theorem test_font_is_a_parameter :
    (State.resetWith .legacy 0 ((Vector.replicate 80 0xAA).set 79 0x55)).mem.readBytes 0x09E 3 = [0xAA, 0x55, 0x00] := by decide

/-! Witnesses: for every statement with hypotheses, a state and operands that meet them together, one a clause, at a value
where the clause's range begins or ends. -/

/-- A legal fetch address at each end of the range. -/
theorem witness_legal_fetch_ends : LegalFetch 0x200 ∧ LegalFetch 0xFFE := by unfold LegalFetch; decide

/-- Addresses just outside, and an odd one. -/
theorem witness_illegal_fetch_ends : ¬ LegalFetch 0x1FE ∧ ¬ LegalFetch 0x1000 ∧ ¬ LegalFetch 0xFFF ∧ ¬ LegalFetch 0x201 := by
  unfold LegalFetch; decide

/-- A legal state in the middle of a run: two return addresses at the ends of their range, TICKCNT at its last value,
memory written. -/
def midRun : State :=
  { machine .modern 3 [(0, 0xAB), (1, 0xCD)] with
    stack := #v[0x0202, 0x1000, 0, 0, 0, 0, 0, 0, 0, 0, 0, 0, 0, 0, 0, 0], sp := 2, tickcnt := 3, mem := ⟨Config.font, [(0x200, 0x12)]⟩ }

theorem midRun_legal : midRun.Legal where
  mem_wf := by decide
  tickcnt_lt := by decide
  fault_iff := by decide
  fault_empty := by decide
  stack_entries := by unfold AfterFetch; decide
  wait_pc := fun h => by cases h

/-- The same state waiting for the release of key 15. -/
def waiting (samples : List InputSample) : State :=
  { midRun with status := .waitRelease, pc := 0x1000, kwKey := 15, kwX := 15, inputs := samples }

theorem waiting_legal (samples : List InputSample) : (waiting samples).Legal where
  mem_wf := midRun_legal.mem_wf
  tickcnt_lt := midRun_legal.tickcnt_lt
  fault_iff := ⟨fun _ h => (by cases h), fun _ => rfl⟩
  fault_empty := fun _ => rfl
  stack_entries := midRun_legal.stack_entries
  wait_pc := fun _ => show AfterFetch 0x1000 by unfold AfterFetch; decide

/-- A state halted by `RET` at 0x200 on an empty stack. -/
def stopped : State :=
  { machine .legacy 0 [] with
    mem := ⟨Config.font, [(0x201, 0xEE)]⟩, pc := 0x202, status := .halted, fault := ⟨.stackUnderflow, 0, 0x200, 0x00EE⟩ }

theorem stopped_truth : stopped.FaultTruth := fun _ =>
  ⟨⟨⟨by decide, by decide, by decide⟩, by decide, by decide⟩, rfl, rfl, 0, rfl⟩

theorem witness_FieldsAreFixedBitRanges : (0xD9A7 : Word) = wordOfBytes 0xD9 0xA7 := by decide

theorem witness_DecodeOfEncodeIsTheInstruction :
    (Instr.jpV0 0xFFF 0xF).wellFormed = true ∧ (Instr.drw 0xF 0xF 0xF).wellFormed = true := by decide

theorem witness_EncodeOfDecodeIsTheWord : decodeWord 0x0FEE = .ok (.ret 0xF) ∧ decodeWord 0xFF65 = .ok (.loadRegs 0xF) := ⟨rfl, rfl⟩

theorem witness_TableRowsPartitionTheLegalWords :
    decodeWord 0x0FEE = .ok (.ret 0xF) ∧ (∃ row ∈ opcodeTable, row.covers 0x0FEE = true) ∧
    opcodeTable.countP (fun row => row.covers 0x0FED) = 0 := ⟨rfl, ⟨⟨0x00EE, 0xF0FF⟩, by decide, by decide⟩, by decide⟩

theorem witness_IllegalWordsRaiseUnknownInstruction_illegal :
    let s := { poke (machine .legacy 0 []) 0xFFE [0xF0, 0x66] with pc := 0xFFE }
    s.status = .run ∧ s.Requested ∧ LegalFetch s.pc ∧ illegalKey (decodeFields (s.wordAt s.pc)) :=
  ⟨rfl, rfl, ⟨by decide, by decide, by decide⟩, .inr (.inr (.inr (by decide)))⟩

theorem witness_IllegalWordsRaiseUnknownInstruction_legal :
    let s := poke (machine .legacy 0 []) 0x200 [0xFF, 0x65]
    s.status = .run ∧ s.Requested ∧ LegalFetch s.pc ∧ ¬ illegalKey (decodeFields (s.wordAt s.pc)) :=
  ⟨rfl, rfl, ⟨by decide, by decide, by decide⟩, by unfold illegalKey; decide⟩

theorem witness_StepRunsTheDecodedInstruction :
    let s := poke (machine .legacy 0 []) 0x200 [0xB3, 0xFF]
    s.status = .run ∧ s.Requested ∧ LegalFetch s.pc ∧
    decode [s.mem.read s.pc.toNat, s.mem.read (s.pc.toNat + 1)] = .ok (.jpV0 0x3FF 3, []) :=
  ⟨rfl, rfl, ⟨by decide, by decide, by decide⟩, rfl⟩

theorem witness_BadProgramCounterHaltsBeforeTheFetch :
    let s := { machine .legacy 0 [] with pc := 0x1000 }
    s.status = .run ∧ s.Requested ∧ ¬ LegalFetch s.pc :=
  ⟨rfl, rfl, witness_illegal_fetch_ends.2.1⟩

theorem witness_HaltedOrUnrequestedStepChangesNothing_halted : stopped.status = .halted := rfl
theorem witness_HaltedOrUnrequestedStepChangesNothing_unrequested :
    ¬ { machine .legacy 0 [] with inputs := [⟨false, 0, 0, 0⟩] }.Requested := by unfold State.Requested; decide

theorem witness_WaitReleaseStepPollsTheLatchedKey_released :
    let s := waiting [⟨true, 0, 0x8000, 0⟩]
    s.status = .waitRelease ∧ s.Requested ∧ s.input.keyReleased.getLsbD s.kwKey.val = true := ⟨rfl, rfl, by decide⟩
theorem witness_WaitReleaseStepPollsTheLatchedKey_held :
    let s := waiting [⟨true, 0, 0x7FFF, 0⟩]
    s.status = .waitRelease ∧ s.Requested ∧ s.input.keyReleased.getLsbD s.kwKey.val = false := ⟨rfl, rfl, by decide⟩

theorem witness_OnlyCompletedInstructionsMoveThePrescaler_counted :
    let s := (machine .legacy 3 []).placeWord 0x1200
    ∃ t, step s = .next t ∧ s.Requested ∧ s.status ≠ .halted ∧ t.status = .run ∧
      ¬ (s.status = .waitRelease ∧ s.keyReleased s.kwKey = false) := ⟨_, rfl, rfl, by decide, rfl, by decide⟩
theorem witness_OnlyCompletedInstructionsMoveThePrescaler_faulting :
    let s := (machine .legacy 3 []).placeWord 0x00EE
    ∃ t, step s = .next t ∧ (¬ s.Requested ∨ s.status = .halted ∨ t.status ≠ .run) := ⟨_, rfl, .inr (.inr (by decide))⟩

theorem witness_FaultingStepChangesOnlyPcAndTheRecord_handler :
    let s := { machine .legacy 3 [] with pc := 0xFFE }.placeWord 0x00EE
    ∃ t, s.status ≠ .halted ∧ step s = .next t ∧ t.status = .halted ∧ LegalFetch s.pc :=
  ⟨_, by decide, rfl, rfl, ⟨by decide, by decide, by decide⟩⟩
theorem witness_FaultingStepChangesOnlyPcAndTheRecord_pc :
    let s := { machine .legacy 3 [] with pc := 0x1FE }
    ∃ t, s.status ≠ .halted ∧ step s = .next t ∧ t.status = .halted ∧ ¬ LegalFetch s.pc :=
  ⟨_, by decide, rfl, rfl, witness_illegal_fetch_ends.1⟩

theorem witness_StepKeepsLegalStates : ∃ t, midRun.Legal ∧ step midRun = .next t := ⟨_, midRun_legal, rfl⟩
theorem witness_StepKeepsTheFaultRecordTrue : ∃ t, stopped.FaultTruth ∧ stopped.status = .halted ∧ step stopped = .next t :=
  ⟨_, stopped_truth, rfl, rfl⟩

theorem witness_ResetLeavesTheTableOfValues : 0x04F < 0x050 ∧ 0x0A0 ≤ 0x0A0 ∧ 79 < 80 := by decide

theorem witness_BootLoadsTheImageOrAborts :
    60 ≤ 60 ∧ (List.replicate 3216 (0 : Byte)).length ≤ 3216 ∧ 3216 < (List.replicate 3217 (0 : Byte)).length :=
  ⟨le_refl _, by rw [List.length_replicate], by rw [List.length_replicate]; decide⟩
theorem witness_BootLoadsTheImageOrAborts_empty : ∃ t, boot .legacy 60 Config.font [] = .next t ∧ t.Requested := ⟨_, rfl, rfl⟩

theorem witness_HaltedIsForeverAndResetIsTotal : stopped.status = .halted := rfl

theorem witness_RunsKeepTheStrapAndTheRate : ∃ t : State, Host.Core.run Sys2Proof.core 1 stopped = .next t := ⟨_, rfl⟩

theorem witness_QuirkModeChangesOnlyItsFiveGroups_others : (touches (.drw 0 0 0)).quirk = false := rfl
theorem witness_QuirkModeChangesOnlyItsFiveGroups_shifts :
    (0xE : Reg) ≠ vf ∧ ∃ t u, exec (.shrReg 0xE 0xF) midRun = .next t ∧ exec (.shlReg 0xE 0xF) midRun = .next u :=
  ⟨by decide, _, _, rfl, rfl⟩
theorem witness_QuirkModeChangesOnlyItsFiveGroups_jump : ∃ t, exec (.jpV0 0xFFF 0xF) midRun = .next t := ⟨_, rfl⟩

theorem witness_InputsReachOnlyKeyAndRandomInstructions : (touches (.ldVxDt 0)).input = false := rfl

theorem witness_EachSpaceIsWrittenOnlyByItsInstructions :
    ∃ t, exec (.addImm 0xF 0xFF) midRun = .next t ∧ (touches (.addImm 0xF 0xFF)).mem = false ∧
      (touches (.addImm 0xF 0xFF)).display = false ∧ (touches (.addImm 0xF 0xFF)).stack = false ∧
      (touches (.addImm 0xF 0xFF)).timers = false := ⟨_, rfl, rfl, rfl, rfl, rfl⟩

theorem witness_EachRegisterIsWrittenOnlyByItsInstructions :
    ∃ t, exec (.addReg 0xE 0xF) midRun = .next t ∧ (touches (.addReg 0xE 0xF)).index = false ∧
      (touches (.addReg 0xE 0xF)).pc = false ∧ writesReg midRun.quirkMode 0 (.addReg 0xE 0xF) = false :=
  ⟨_, rfl, rfl, rfl, by decide⟩

theorem witness_FlagsAreWholeBytesZeroOrOne_flag :
    ∃ t, exec (.addReg 0xF 0) midRun = .next t ∧ t.status ≠ .halted ∧ (touches (.addReg 0xF 0)).flag = true :=
  ⟨_, rfl, by decide, rfl⟩
theorem witness_FlagsAreWholeBytesZeroOrOne_logic :
    let s := machine .legacy 0 [(0xF, 0xFF)]
    ∃ t, exec (.orReg 0xF 0) s = .next t ∧ t.status ≠ .halted ∧ s.quirkMode = .legacy := ⟨_, rfl, by decide, rfl⟩

theorem witness_RetPopsTheStackOrUnderflows_pop : 0 < midRun.sp.val ∧ midRun.Legal := ⟨by decide, midRun_legal⟩
theorem witness_RetPopsTheStackOrUnderflows_last_word :
    ∃ t, exec (.ret 0xF) midRun = .next t ∧ t.pc.toNat = 0x1000 ∧
      ({ midRun with pc := t.pc }).status = .run ∧ ({ midRun with pc := t.pc }).Requested := ⟨_, rfl, by decide, rfl, rfl⟩
theorem witness_RetPopsTheStackOrUnderflows_call :
    ∃ t, midRun.sp.val < 16 ∧ exec (.call 0x200) midRun = .next t := ⟨_, by decide, rfl⟩
theorem witness_RetPopsTheStackOrUnderflows_empty : (machine .legacy 0 []).sp.val = 0 := by decide

theorem witness_JumpSetsTheProgramCounter_self : (0x200 : Addr).toNat + 2 = ({ midRun with pc := 0x202 }).pc.toNat := by decide
theorem witness_JumpSetsTheProgramCounter_low :
    (0x1FF : Addr).toNat < 0x200 ∧ ({ midRun with pc := 0x1FF }).status = .run ∧ ({ midRun with pc := 0x1FF }).Requested :=
  ⟨by decide, rfl, rfl⟩
theorem witness_JumpSetsTheProgramCounter_odd : (0xFFF : Addr).toNat % 2 = 1 := by decide

theorem witness_CallPushesTheReturnAddressOrOverflows_room : ({ midRun with sp := 15 }).sp.val < 16 := by decide
theorem witness_CallPushesTheReturnAddressOrOverflows_full : ({ midRun with sp := 16 }).sp.val = 16 := rfl

theorem witness_ReturnComesBackBehindTheCall :
    ∃ t, midRun.sp.val < 16 ∧ exec (.call 0xFFE) midRun = .next t ∧
      ({ t with pc := 0xFFF, index := 1 }).stack = t.stack ∧ ({ t with pc := 0xFFF, index := 1 }).sp = t.sp :=
  ⟨_, by decide, rfl, rfl, rfl⟩

theorem witness_OffsetJumpAddsTheModesRegister :
    (machine .legacy 0 [(0, 0xFF)]).quirkMode = .legacy ∧ (machine .modern 0 [(0xF, 0xFF)]).quirkMode = .modern := ⟨rfl, rfl⟩

theorem witness_KeySkipsTestThePressedFlag_pressed :
    let s := given (machine .legacy 0 [(0xF, 15)]) 0x8000 0 0
    (s.reg 0xF).toNat ≤ 15 ∧ s.input.keyPressed.getLsbD (s.reg 0xF).toNat = true := by decide
theorem witness_KeySkipsTestThePressedFlag_not_pressed :
    let s := given (machine .legacy 0 []) 0xFFFE 0 0
    (s.reg 0xF).toNat ≤ 15 ∧ s.input.keyPressed.getLsbD (s.reg 0xF).toNat = false := by decide
theorem witness_KeySkipsTestThePressedFlag_above : 15 < ((machine .legacy 0 [(0xF, 16)]).reg 0xF).toNat := by decide

theorem witness_KeyWaitLatchesTheLowestPressedKey_none :
    ∀ k : Key, (given midRun 0 0xFFFF 0).input.keyPressed.getLsbD k.val = false := by decide
theorem witness_KeyWaitLatchesTheLowestPressedKey_some :
    (given midRun 0x8000 0 0).input.keyPressed.getLsbD (15 : Key).val = true ∧
    ∀ j : Key, j < 15 → (given midRun 0x8000 0 0).input.keyPressed.getLsbD j.val = false := by decide

theorem witness_KeyWaitFreezesUntilTheReleaseAndCountsOnce :
    let s := waiting [⟨true, 0x8000, 0x7FFF, 0⟩, ⟨true, 0, 0x8000, 0⟩]
    s.status = .waitRelease ∧ 1 < s.inputs.length ∧
    (∀ i ∈ s.inputs.take 1, i.stepEn = true ∧ i.keyReleased.getLsbD s.kwKey.val = false) ∧
    (∀ i ∈ s.inputs[1]?, i.stepEn = true ∧ i.keyReleased.getLsbD s.kwKey.val = true) ∧ s.Legal :=
  ⟨rfl, by decide, by decide, by decide, waiting_legal _⟩

theorem witness_RegisterLoadsWriteOnlyTheirDestination :
    (Instr.addImm 0xF 0xFF, ((midRun.reg 0xF).toNat + (0xFF : Byte).toNat) % 256) ∈
      [(Instr.ldImm 0xF 0xFF, (0xFF : Byte).toNat), (.ldReg 0xF 0, (midRun.reg 0).toNat),
        (.addImm 0xF 0xFF, ((midRun.reg 0xF).toNat + (0xFF : Byte).toNat) % 256), (.ldVxDt 0xF, midRun.dt.toNat)] :=
  .tail _ (.tail _ (.head _))

theorem witness_RandomIsTheDrawUnderTheMask : (0xFF : Byte) = 0xFF ∧ (0x0F : Byte).getLsbD 7 = false := by decide

theorem witness_LogicOperationsClearTheFlagInLegacyMode :
    (Instr.xorReg 0xF 1, midRun.reg 0xF ^^^ midRun.reg 1) ∈
      [(Instr.orReg 0xF 1, midRun.reg 0xF ||| midRun.reg 1), (.andReg 0xF 1, midRun.reg 0xF &&& midRun.reg 1),
        (.xorReg 0xF 1, midRun.reg 0xF ^^^ midRun.reg 1)] := by simp

theorem witness_SubtractionsSetTheStrictNoBorrowFlag :
    (Instr.subnReg 1 0, (midRun.reg 0).toNat, (midRun.reg 1).toNat) ∈
      [(Instr.subReg 1 0, (midRun.reg 1).toNat, (midRun.reg 0).toNat), (.subnReg 1 0, (midRun.reg 0).toNat, (midRun.reg 1).toNat)] := by
  simp

theorem witness_ShiftsMoveOneBitIntoTheFlag :
    let s := machine .modern 0 [(1, 0x81)]
    (s.quirkMode = .legacy → 0x81 = (s.reg 2).toNat) ∧ (s.quirkMode = .modern → 0x81 = (s.reg 1).toNat) :=
  ⟨fun h => (by cases h), fun _ => by decide⟩

theorem witness_DrawXorsTheSpriteIntoTheDisplay_last_byte :
    (0x1 : Nibble).toNat = 0 ∨ ({ midRun with index := 0xFFF }).index.toNat + (0x1 : Nibble).toNat - 1 ≤ 0xFFF := by decide
theorem witness_DrawXorsTheSpriteIntoTheDisplay_no_byte :
    (0x0 : Nibble).toNat = 0 ∨ ({ midRun with index := 0xFFFF }).index.toNat + (0x0 : Nibble).toNat - 1 ≤ 0xFFF := by decide
theorem witness_DrawXorsTheSpriteIntoTheDisplay_past_the_end :
    0 < (0x2 : Nibble).toNat ∧ 0xFFF < ({ midRun with index := 0xFFF }).index.toNat + (0x2 : Nibble).toNat - 1 := by decide
theorem witness_DrawXorsTheSpriteIntoTheDisplay_hit :
    let s := lit { machine .legacy 0 [] with index := 0x050 } 0 0
    s.dispPixel 0 0 = true ∧ spriteBit s 0 0 1 0 0 = true := by decide
theorem witness_DrawXorsTheSpriteIntoTheDisplay_no_hit :
    ∀ r c, ({ machine .legacy 0 [] with index := 0x050 }).dispPixel r c = true →
      spriteBit { machine .legacy 0 [] with index := 0x050 } 0 0 1 r c = false :=
  fun r c h => absurd (show Display.clear.pixel r c.val = true from h) (by simp)

theorem witness_DrawingTwiceRestoresTheDisplay :
    let s := { machine .legacy 0 [] with index := 0x050 }
    ∃ t u, (0 : Reg) ≠ vf ∧ s.index.toNat + (5 : Nibble).toNat - 1 ≤ 0xFFF ∧ exec (.drw 0 0 5) s = .next t ∧
      exec (.drw 0 0 5) t = .next u ∧ (∀ r c, spriteBit s 0 0 5 r c = true → s.dispPixel r c = false) ∧
      ∃ r c, spriteBit s 0 0 5 r c = true :=
  ⟨_, _, by decide, by decide, rfl, rfl, fun r c _ => (Display.clear_pixel r c.val), 4, 3, by decide⟩

theorem witness_IndexLoadsSetTheIndex :
    (Instr.ldF 0, 0x050 + 5 * ((midRun.reg 0).toNat % 16)) ∈
      [(Instr.ldI 0xFFF, (0xFFF : Addr).toNat), (.ldF 0, 0x050 + 5 * ((midRun.reg 0).toNat % 16))] := by simp

theorem witness_DecimalStoreWritesThreeDigits_last : ({ midRun with index := 0xFFD }).index.toNat ≤ 0xFFD := by decide
theorem witness_DecimalStoreWritesThreeDigits_past : 0xFFD < ({ midRun with index := 0xFFE }).index.toNat := by decide

theorem witness_BulkStoreWritesTheRegisters_last : ({ midRun with index := 0xFF0 }).index.toNat + (15 : Reg).val ≤ 0xFFF := by decide
theorem witness_BulkStoreWritesTheRegisters_past : 0xFFF < ({ midRun with index := 0xFF1 }).index.toNat + (15 : Reg).val := by decide

theorem witness_BulkLoadReadsTheRegisters_last : ({ midRun with index := 0xFFF }).index.toNat + (0 : Reg).val ≤ 0xFFF := by decide
theorem witness_BulkLoadReadsTheRegisters_past : 0xFFF < ({ midRun with index := 0x1000 }).index.toNat + (0 : Reg).val := by decide

theorem witness_BulkLoadUndoesBulkStore :
    let s := { midRun with index := 0xFFE }
    ∃ t w, s.index.toNat + (1 : Reg).val ≤ 0xFFF ∧ exec (.storeRegs 1) s = .next t ∧
      exec (.loadRegs 1) { t with v := Vector.replicate 16 0, index := s.index } = .next w :=
  ⟨_, _, by decide, rfl, rfl⟩

theorem witness_StoresAreSeenByTheNextFetch_bulk :
    let s := { poke (machine .modern 0 [(0, 0x12), (1, 0x00)]) 0xFFC [0xF1, 0x55] with pc := 0xFFC, index := 0xFFE }
    (Instr.storeRegs 1, s.regsUpTo 1) ∈ [(Instr.ldB 1, decimalDigits (s.reg 1)), (.storeRegs 1, s.regsUpTo 1)] ∧
    s.status = .run ∧ s.Requested ∧ LegalFetch s.pc ∧ decodeWord s.fetchWord = .ok (.storeRegs 1) ∧
    s.index.toNat + (s.regsUpTo 1).length ≤ 0x1000 ∧ s.index.toNat ≤ s.pc.toNat + 2 ∧
    s.pc.toNat + 3 < s.index.toNat + (s.regsUpTo 1).length ∧
    ∃ t, step s = .next t ∧ t.Requested ∧ decodeWord t.fetchWord = .ok (.jp 0x200) :=
  ⟨.tail _ (.head _), rfl, rfl, ⟨by decide, by decide, by decide⟩, rfl, by decide, by decide, by decide, _, rfl, rfl, rfl⟩

theorem witness_StoresAreSeenByTheNextFetch_decimal :
    let s := { poke (machine .modern 0 [(1, 0xFF)]) 0x200 [0xF1, 0x33] with index := 0x201 }
    (Instr.ldB 1, decimalDigits (s.reg 1)) ∈ [(Instr.ldB 1, decimalDigits (s.reg 1)), (.storeRegs 1, s.regsUpTo 1)] ∧
    s.status = .run ∧ s.Requested ∧ LegalFetch s.pc ∧ decodeWord s.fetchWord = .ok (.ldB 1) ∧
    s.index.toNat + (decimalDigits (s.reg 1)).length ≤ 0x1000 ∧ s.index.toNat ≤ s.pc.toNat + 2 ∧
    s.pc.toNat + 3 < s.index.toNat + (decimalDigits (s.reg 1)).length ∧
    ∃ t, step s = .next t ∧ t.Requested ∧ t.fetchWord = 0x0505 ∧ illegalKey (decodeFields t.fetchWord) :=
  ⟨.head _, rfl, rfl, ⟨by decide, by decide, by decide⟩, rfl, by decide, by decide, by decide, _, rfl, rfl, by decide,
    .inl (by decide)⟩

theorem witness_CanonicalMemoriesThatReadAlikeAreEqual :
    let m : Memory := ⟨Config.font, [(0x050, 0x00), (0xFFF, 0x01)]⟩
    m.wf ∧ m.font = m.font ∧ ∀ a, a ≤ 0xFFF → m.read a = m.read a := ⟨by decide, rfl, fun _ _ => rfl⟩

theorem witness_TimerHookTicksEveryTickDiv_counts : (machine .legacy 3 []).tickcnt + 1 < (machine .legacy 3 []).tickDiv := by decide
theorem witness_TimerHookTicksEveryTickDiv_ticks : midRun.tickDiv ≤ midRun.tickcnt + 1 := by decide

theorem witness_DelayRunsOutAfterExactlyTheFormula_hooks :
    1 ≤ ({ midRun with dt := 1 }).dt.toNat ∧ ({ midRun with dt := 1 }).tickcnt < ({ midRun with dt := 1 }).tickDiv := by decide

/-- `LD DT, V0` with 1 in V0 and TICK_DIV 2, then a jump to itself: two counted steps run the delay out. -/
theorem witness_DelayRunsOutAfterExactlyTheFormula_steps :
    let s := poke (machine .legacy 1 [(0, 1)]) 0x200 [0xF0, 0x15, 0x12, 0x02]
    s.status = .run ∧ s.Requested ∧ LegalFetch s.pc ∧ decodeWord s.fetchWord = .ok (.ldDtVx 0) ∧
    1 ≤ (s.reg 0).toNat ∧ s.tickcnt < s.tickDiv ∧ 2 = ((s.reg 0).toNat - 1) * s.tickDiv + (s.tickDiv - s.tickcnt) ∧
    ∃ u : State, Host.Core.run Sys2Proof.core 1 s = .next u ∧ u.CountsKeepingDt :=
  ⟨rfl, rfl, ⟨by decide, by decide, by decide⟩, rfl, by decide, by decide, by decide, _, rfl,
    ⟨rfl, by decide, by decide, _, rfl, rfl⟩, fun _ x h => by cases h⟩

end Sys2Proof.Tests.Slice0
end

section
/-! PROOFS. The family of 30_encoding.md: the fields of a word (R71). -/

namespace Sys2Proof

/-- The wider fields are the digits they overlap, weighted by their places (R71). -/
theorem decodeFields_overlap (w : Word) :
    (decodeFields w).nn.toNat = (decodeFields w).y.val * 16 + (decodeFields w).n.toNat ∧
    (decodeFields w).nnn.toNat =
      (decodeFields w).x.val * 256 + (decodeFields w).y.val * 16 + (decodeFields w).n.toNat := by
  obtain ⟨-, hx, hy, hn, hnn, hnnn⟩ := decodeFields_toNat w
  rw [hx, hy, hn, hnn, hnnn]
  constructor <;> omega

/-- The high byte is the class digit, then the `x` digit (R57, R71). -/
theorem highByte_toNat_eq_fields (w : Word) :
    (highByte w).toNat = (decodeFields w).opcodeClass.toNat * 16 + (decodeFields w).x.val := by
  obtain ⟨hclass, hx, -⟩ := decodeFields_toNat w
  rw [highByte_toNat, hclass, hx]
  omega

/-- The field `nn` is the low byte (R57, R71). -/
theorem decodeFields_nn (w : Word) : (decodeFields w).nn = lowByte w := rfl

/-- Settles O2: the digits are quotients and remainders of the word's number, the wider fields are made of digits, and the
two bytes are the word's high and low byte. -/
theorem fieldsAreFixedBitRanges : Obligations.FieldsAreFixedBitRanges := by
  intro w
  obtain ⟨hclass, hx, hy, hn, -, -⟩ := decodeFields_toNat w
  obtain ⟨hnn, hnnn⟩ := decodeFields_overlap w
  refine ⟨hclass, hx, hy, hn, hnn, hnnn, rfl, ?_⟩
  rintro hi lo rfl
  constructor
  · rw [← highByte_toNat_eq_fields, highByte_wordOfBytes]
  · rw [decodeFields_nn, lowByte_wordOfBytes]

end Sys2Proof
end

section
/-! PROOFS. The family of 41_flow.md: `RET` (R101). -/

namespace Sys2Proof

/-- Whatever digit stands for `x`, the word 0?EE is `RET` (R76, R77). -/
theorem decodeWord_ret (x : Nibble) : decodeWord (formatXI 0x0 x 0xEE) = .ok (.ret x) := by
  obtain ⟨hclass, hx, hnn, -⟩ := decodeFields_formatXI 0x0 x 0xEE
  rw [decodeWord, dispatchFields, hclass]
  change dispatchClass0 _ = _
  rw [dispatchClass0, hnn, hx]
  rfl

namespace Machine

/-- A requested step in RUN at an illegal `pc` raises `BadProgramCounter` and does nothing else (R92, R186). -/
theorem step_of_not_legalFetch {s : State} (hrun : s.status = .run) (hreq : s.Requested) (hpc : ¬ LegalFetch s.pc) :
    step s = .next s.raiseBadPc.consumeInput := by
  obtain ⟨t, ht, ⟨hidle, -⟩ | ⟨-, hto⟩⟩ := step_cases s
  · exact absurd hreq hidle
  · cases hto with
    | badPc => exact ht
    | halted hs => simp [hrun] at hs
    | poll hs => simp [hrun] at hs
    | unknown _ hp => exact absurd hp hpc
    | run _ hp => exact absurd hp hpc

/-- The address behind the last word of memory is no legal fetch address (R92, R101). -/
theorem not_legalFetch_of_toNat_eq_0x1000 {a : Word} (h : a.toNat = 0x1000) : ¬ LegalFetch a := by
  rintro ⟨-, -, hlast⟩
  omega

/-- Only the address 0xFFE is followed by 0x1000 (R14, R101). -/
theorem toNat_eq_0x1000_iff_sub_two (a : Word) : a.toNat = 0x1000 ↔ (a - 2).toNat = 0xFFE := by
  bv_omega

/-- `CALL` with room on the stack leaves `pc`, unmasked, as the newest entry (R103). -/
theorem exec_call_newest {nnn : Addr} {s t : State} (h : s.sp.val < 16) (ht : exec (.call nnn) s = .next t) :
    t.stack.get ⟨s.sp.val, h⟩ = s.pc := by
  rw [exec_call_next nnn s h] at ht
  cases ht
  simp [Vector.get_eq_getElem]

/-- The newest entry of a legal state is what follows a legal fetch address (R101). -/
theorem State.Legal.newest {s : State} (hs : s.Legal) (h : 0 < s.sp.val) :
    AfterFetch (s.stack.get ⟨s.sp.val - 1, by omega⟩) :=
  hs.stack_entries _ (by show s.sp.val - 1 < s.sp.val; omega)

end Machine

open Machine in
/-- Settles O26: the four parts of R101, by the two outcomes of `RET`, the value a `CALL` pushes and the check of `pc`. -/
theorem retPopsTheStackOrUnderflows : Obligations.RetPopsTheStackOrUnderflows := by
  intro x s
  refine ⟨decodeWord_ret x, fun h => ?pops, fun nnn u t h ht => ?pushes, fun h => ?underflows⟩
  case pops =>
    refine ⟨_, exec_ret_next x s h, rfl, rfl, rfl, fun _ => rfl, fun hs => ?legal, fun hend u hpc hrun hreq => ?faults⟩
    case legal =>
      obtain ⟨heven, -, hle⟩ := hs.newest h
      exact ⟨heven, hle⟩
    case faults =>
      have hbad : ¬ LegalFetch u.pc := hpc ▸ not_legalFetch_of_toNat_eq_0x1000 hend
      exact ⟨_, step_of_not_legalFetch hrun hreq hbad, rfl, rfl⟩
  case pushes =>
    rw [exec_call_newest h ht]
    exact toNat_eq_0x1000_iff_sub_two u.pc
  case underflows =>
    exact ⟨_, exec_ret_underflow x s h, rfl, rfl, rfl, fun _ => rfl⟩

end Sys2Proof
end

section
/-! PROOFS. The family of 44_keys.md: `SKP` and `SKNP` (R151, R152). -/

namespace Sys2Proof

/-- A class 0xE word is looked up among the key skips alone (R75, R154). -/
theorem decodeWord_classE (x : Nibble) (nn : Byte) :
    decodeWord (formatXI 0xE x nn) = dispatchClassE (decodeFields (formatXI 0xE x nn)) := by
  obtain ⟨hclass, -⟩ := decodeFields_formatXI 0xE x nn
  rw [decodeWord, dispatchFields, hclass]
  rfl

/-- The word EX9E is `SKP` (R76, R151). -/
theorem decodeWord_skp (x : Reg) : decodeWord (formatXI 0xE (BitVec.ofFin x) 0x9E) = .ok (.skp x) := by
  obtain ⟨-, hx, hnn, -⟩ := decodeFields_formatXI 0xE (BitVec.ofFin x) 0x9E
  rw [decodeWord_classE, dispatchClassE, hnn, hx]
  rfl

/-- The word EXA1 is `SKNP` (R76, R152). -/
theorem decodeWord_sknp (x : Reg) : decodeWord (formatXI 0xE (BitVec.ofFin x) 0xA1) = .ok (.sknp x) := by
  obtain ⟨-, hx, hnn, -⟩ := decodeFields_formatXI 0xE (BitVec.ofFin x) 0xA1
  rw [decodeWord_classE, dispatchClassE, hnn, hx]
  rfl

namespace Machine

/-- Both key skips raise the same fault when the whole byte `V[x]` is no key number (R151, R152, R185). -/
theorem exec_keySkip_fault {x : Reg} {s : State} {i : Instr} (hi : i = .skp x ∨ i = .sknp x)
    (h : 15 < (s.reg x).toNat) :
    exec i s = .next (s.raiseIn i .keyIndexOutOfRange (byteToWord (s.reg x))) := by
  obtain rfl | rfl := hi
  · exact exec_skp_fault x s h
  · exact exec_sknp_fault x s h

end Machine

open Machine in
/-- Settles O32, by the two outcomes of each key skip: the test of the flag of key `V[x]`, or the fault of a byte above
15. -/
theorem keySkipsTestThePressedFlag : Obligations.KeySkipsTestThePressedFlag := by
  intro x s
  refine ⟨decodeWord_skp x, decodeWord_sknp x, fun hkey => ⟨?skp, ?sknp⟩, fun habove i hi => ?fault⟩
  case skp =>
    refine ⟨_, exec_skp_next x s (Nat.lt_succ_of_le hkey), rfl, fun _ => rfl, fun hpressed => ?_, fun hfree => ?_⟩
    · exact if_pos hpressed
    · exact if_neg (by simp [hfree])
  case sknp =>
    refine ⟨_, exec_sknp_next x s (Nat.lt_succ_of_le hkey), rfl, fun _ => rfl, fun hpressed => ?_, fun hfree => ?_⟩
    · exact if_pos hpressed
    · exact if_neg (by simp [hfree])
  case fault =>
    exact ⟨_, exec_keySkip_fault hi habove, rfl, rfl, byteToWord_toNat _, rfl, fun _ => rfl⟩

end Sys2Proof
end

section
/-! PROOFS. The family of 70_reset_and_hazards.md: the loader (R212). -/

namespace Sys2Proof

namespace Machine

/-- An image within the writable region is loaded over the state after reset (R211, R212). -/
theorem boot_of_length_le {rate : Nat} {image : List Byte} (strap : QuirkMode) (font : Config.Font) (hrate : 60 ≤ rate)
    (h : image.length ≤ 3216) :
    boot strap rate font image = .next (loadImage image (State.resetWith strap (rate - 60) font)) := by
  rw [boot, if_neg (Nat.not_lt.2 hrate), if_pos ((imageFits_iff image).2 h)]

/-- A longer image aborts the process before a first step (R205, R212). -/
theorem boot_of_lt_length {rate : Nat} {image : List Byte} (strap : QuirkMode) (font : Config.Font) (hrate : 60 ≤ rate)
    (h : 3216 < image.length) : boot strap rate font image = .fault .imageTooLong := by
  rw [boot, if_neg (Nat.not_lt.2 hrate), if_neg fun hfits => Nat.not_le.2 h ((imageFits_iff image).1 hfits)]

/-- Behind the font the memory after reset is zero (R38). -/
theorem State.resetWith_read_zero (strap : QuirkMode) (rateOver60 : Nat) (font : Config.Font) {a : Nat} (h : 0x0A0 ≤ a) :
    (State.resetWith strap rateOver60 font).mem.read a = 0 :=
  Memory.background_zero _ a (.inr h)

/-- Byte `j` of the image lands at 0x200 + `j` (R212). -/
theorem loadImage_read {image : List Byte} (s : State) {j : Nat} (h : j < image.length) :
    (loadImage image s).mem.read (0x200 + j) = image[j] := by
  have hrange : 0x200 ≤ 0x200 + j ∧ 0x200 + j - 0x200 < image.length := by omega
  rw [loadImage, Memory.read_writeBytes, dif_pos hrange]
  simp

/-- The loader writes the bytes of the image alone (R212). -/
theorem loadImage_sameMemoryOutside (image : List Byte) (s : State) :
    SameMemoryOutside s (loadImage image s) 0x200 image.length :=
  fun a h => Memory.read_writeBytes_outside s.mem 0x200 a image h

/-- A requested step in RUN whose fetched word has no handler raises `UnknownInstruction` after the advance (R94, R182). -/
theorem step_of_decodeWord_error {s : State} {e : Reject} (hrun : s.status = .run) (hreq : s.Requested)
    (hpc : LegalFetch s.pc) (hd : decodeWord s.fetchWord = .error e) :
    step s = .next (s.advance.raiseUnknown s.fetchWord).consumeInput := by
  obtain ⟨t, ht, ⟨hidle, -⟩ | ⟨-, hto⟩⟩ := step_cases s
  · exact absurd hreq hidle
  · cases hto with
    | unknown => exact ht
    | halted hs => simp [hrun] at hs
    | poll hs => simp [hrun] at hs
    | badPc _ hp => exact absurd hpc hp
    | run _ _ i u hi => simp [hd] at hi

/-- With no program loaded, the first fetch after reset reads the word 0x0000 (R38, R57). -/
theorem State.resetWith_fetchWord (strap : QuirkMode) (rateOver60 : Nat) (font : Config.Font) :
    (State.resetWith strap rateOver60 font).fetchWord = 0x0000 := by
  have hhi := State.resetWith_read_zero strap rateOver60 font (a := 0x200) (by decide)
  have hlo := State.resetWith_read_zero strap rateOver60 font (a := 0x201) (by decide)
  change wordOfBytes (Memory.read _ 0x200) (Memory.read _ 0x201) = 0x0000
  rw [hhi, hlo]
  decide

/-- The address reset starts at is a legal fetch address (R38, R92). -/
theorem legalFetch_loadBase : LegalFetch 0x200 := ⟨by decide, by decide, by decide⟩

/-- With no program loaded, a requested first step halts on the illegal word 0x0000 (R38, R182). -/
theorem step_resetWith_halts (strap : QuirkMode) (rateOver60 : Nat) (font : Config.Font)
    (hreq : (State.resetWith strap rateOver60 font).Requested) :
    ∃ u, step (State.resetWith strap rateOver60 font) = .next u ∧ u.status = .halted ∧
      u.fault.cause = .unknownInstruction ∧ u.fault.info = 0x0000 := by
  have hword := State.resetWith_fetchWord strap rateOver60 font
  have hillegal : decodeWord (State.resetWith strap rateOver60 font).fetchWord = .error (.unknownInstruction 0x0000) := by
    rw [hword]
    rfl
  have hpc : LegalFetch (State.resetWith strap rateOver60 font).pc := legalFetch_loadBase
  exact ⟨_, step_of_decodeWord_error rfl hreq hpc hillegal, rfl, rfl, hword⟩

end Machine

open Machine in
/-- Settles O18: an image of at most 3216 bytes is copied over the state after reset, a longer one aborts, and with an empty
image the first step meets the word 0x0000. -/
theorem bootLoadsTheImageOrAborts : Obligations.BootLoadsTheImageOrAborts := by
  intro strap rate font image hrate
  refine ⟨by omega, fun hfits => ?loads, boot_of_lt_length strap font hrate, ?empty⟩
  case loads =>
    have houtside := loadImage_sameMemoryOutside image (State.resetWith strap (rate - 60) font)
    refine ⟨_, boot_of_length_le strap font hrate hfits, rfl, fun _ hj => loadImage_read _ hj, ?_, houtside⟩
    calc (loadImage image (State.resetWith strap (rate - 60) font)).mem.read (0x200 + image.length)
        = (State.resetWith strap (rate - 60) font).mem.read (0x200 + image.length) := houtside _ (.inr le_rfl)
      _ = 0 := State.resetWith_read_zero strap _ font (by omega)
  case empty =>
    rintro rfl t ht hreq
    rw [boot_of_length_le strap font hrate (Nat.zero_le _)] at ht
    cases ht
    exact step_resetWith_halts strap (rate - 60) font hreq

end Sys2Proof
end

section
/-! PROOFS. The encoding (30_encoding.md sections 3, 4 and 6): decode and encode undo each other, which words have no
handler, and the rows of the opcode table. -/

namespace Sys2Proof

/-! Decode after encode -/

/-- The word of a well-formed instruction decodes to it, format by format (R72, R76): the fields of the word are the
operands, and the key selects the handler. -/
theorem decodeWord_encode {i : Instr} (h : i.wellFormed = true) : decodeWord (encode i) = .ok i := by
  cases i
  case jpV0 nnn x =>
    have hx : nnn.extractLsb' 8 4 = BitVec.ofFin x := eq_of_beq h
    simp [encode, decodeWord, dispatchFields, decodeFields_formatA, hx]
  case jp | call | ldI =>
    simp [encode, decodeWord, dispatchFields, decodeFields_formatA]
  case seImm | sneImm | ldImm | addImm | rnd =>
    simp [encode, decodeWord, dispatchFields, decodeFields_formatXI, regField]
  case seReg | sneReg | drw =>
    simp [encode, decodeWord, dispatchFields, decodeFields_formatXY, regField]
  case cls | ret =>
    simp [encode, decodeWord, dispatchFields, dispatchClass0, decodeFields_formatXI]
  case ldReg | orReg | andReg | xorReg | addReg | subReg | shrReg | subnReg | shlReg =>
    simp [encode, decodeWord, dispatchFields, dispatchClass8, decodeFields_formatXY, regField]
  case skp | sknp =>
    simp [encode, decodeWord, dispatchFields, dispatchClassE, decodeFields_formatXI, regField]
  case ldVxDt | ldVxK | ldDtVx | ldStVx | addI | ldF | ldB | storeRegs | loadRegs =>
    simp [encode, decodeWord, dispatchFields, dispatchClassF, decodeFields_formatXI, regField]

/-- Decoding bytes is decoding the word of the first two (R57, R70). -/
theorem decode_of_decodeWord {hi lo : Byte} {i : Instr} (rest : List Byte) (h : decodeWord (wordOfBytes hi lo) = .ok i) :
    decode (hi :: lo :: rest) = .ok (i, rest) := by
  simp only [decode, h]

/-- Settles O3: the two bytes of an instruction make its word, and the word decodes to it. -/
theorem decodeOfEncodeIsTheInstruction : Obligations.DecodeOfEncodeIsTheInstruction := by
  intro i rest h
  refine decode_of_decodeWord rest ?_
  rw [wordOfBytes_split, decodeWord_encode h]

/-! Encode after decode -/

section
variable {w : Word} {c n : Nibble} {nn : Byte}

/-- A word is format A of its class and its `nnn` (R71, R72). -/
theorem formatA_of_fields (hclass : (decodeFields w).opcodeClass = c) : formatA c (decodeFields w).nnn = w := by
  subst hclass
  obtain ⟨hclass, -, -, -, -, hnnn⟩ := decodeFields_toNat w
  apply BitVec.eq_of_toNat_eq
  rw [formatA_toNat, hclass, hnnn]
  omega

/-- A word is format XI of its class, its `x` and its `nn` (R71, R72). -/
theorem formatXI_of_fields (hclass : (decodeFields w).opcodeClass = c) (hnn : (decodeFields w).nn = nn) :
    formatXI c (regField (decodeFields w).x) nn = w := by
  subst hclass hnn
  obtain ⟨hclass, hx, -, -, hnn, -⟩ := decodeFields_toNat w
  apply BitVec.eq_of_toNat_eq
  rw [formatXI_toNat, hclass, regField_toNat, hx, hnn]
  omega

/-- A word is format XY of its four digits (R71, R72). -/
theorem formatXY_of_fields (hclass : (decodeFields w).opcodeClass = c) (hn : (decodeFields w).n = n) :
    formatXY c (regField (decodeFields w).x) (regField (decodeFields w).y) n = w := by
  subst hclass hn
  obtain ⟨hclass, hx, hy, hn, -, -⟩ := decodeFields_toNat w
  apply BitVec.eq_of_toNat_eq
  rw [formatXY_toNat, hclass, regField_toNat, regField_toNat, hx, hy, hn]
  omega

end

/-- The digit `x` is the top digit of `nnn` (R71). -/
theorem decodeFields_nnn_top (w : Word) : (decodeFields w).nnn.extractLsb' 8 4 = BitVec.ofFin (decodeFields w).x := by
  obtain ⟨-, hx, -, -, -, hnnn⟩ := decodeFields_toNat w
  apply BitVec.eq_of_toNat_eq
  change _ = (decodeFields w).x.val
  rw [BitVec.extractLsb'_toNat, hx, hnnn, Nat.shiftRight_eq_div_pow]
  omega

/-- What decoding a word to an instruction says of both: the instruction's word is the one decoded, and it is well formed. -/
def Spells (i : Instr) (w : Word) : Prop := encode i = w ∧ i.wellFormed = true

section
variable {w : Word} {i : Instr}

/-- Class 0x0: the digit `x` is kept, so the word comes back whole (R76, R77). -/
theorem spells_of_dispatchClass0 (hclass : (decodeFields w).opcodeClass = 0x0)
    (h : dispatchClass0 (decodeFields w) = .ok i) : Spells i w := by
  unfold dispatchClass0 at h
  split at h <;> cases h <;> exact ⟨formatXI_of_fields hclass ‹_›, rfl⟩

/-- Class 0x8 (R76). -/
theorem spells_of_dispatchClass8 (hclass : (decodeFields w).opcodeClass = 0x8)
    (h : dispatchClass8 (decodeFields w) = .ok i) : Spells i w := by
  unfold dispatchClass8 at h
  split at h <;> cases h <;> exact ⟨formatXY_of_fields hclass ‹_›, rfl⟩

/-- Class 0xE (R76). -/
theorem spells_of_dispatchClassE (hclass : (decodeFields w).opcodeClass = 0xE)
    (h : dispatchClassE (decodeFields w) = .ok i) : Spells i w := by
  unfold dispatchClassE at h
  split at h <;> cases h <;> exact ⟨formatXI_of_fields hclass ‹_›, rfl⟩

/-- Class 0xF (R76). -/
theorem spells_of_dispatchClassF (hclass : (decodeFields w).opcodeClass = 0xF)
    (h : dispatchClassF (decodeFields w) = .ok i) : Spells i w := by
  unfold dispatchClassF at h
  split at h <;> cases h <;> exact ⟨formatXI_of_fields hclass ‹_›, rfl⟩

end

/-- The class behind the fifteen others. -/
theorem eq_0xF_of_notMem {c : Nibble}
    (h : c ∉ [0x0#4, 0x1#4, 0x2#4, 0x3#4, 0x4#4, 0x5#4, 0x6#4, 0x7#4, 0x8#4, 0x9#4, 0xA#4, 0xB#4, 0xC#4, 0xD#4, 0xE#4]) :
    c = 0xF := by
  decide +revert

/-- Everything the dispatch of a word can be: one of four classes with a second key, or a class that is a key by itself,
where the fields spell the word (R75, R76). -/
theorem decodeWord_cases (w : Word) :
    ((decodeFields w).opcodeClass = 0x0 ∧ decodeWord w = dispatchClass0 (decodeFields w)) ∨
    ((decodeFields w).opcodeClass = 0x8 ∧ decodeWord w = dispatchClass8 (decodeFields w)) ∨
    ((decodeFields w).opcodeClass = 0xE ∧ decodeWord w = dispatchClassE (decodeFields w)) ∨
    ((decodeFields w).opcodeClass = 0xF ∧ decodeWord w = dispatchClassF (decodeFields w)) ∨
    ((decodeFields w).opcodeClass ∉ [0x0#4, 0x8#4, 0xE#4, 0xF#4] ∧ ∃ i, decodeWord w = .ok i ∧ Spells i w) := by
  unfold decodeWord dispatchFields
  split
  case h_1 hclass => exact .inl ⟨hclass, rfl⟩
  case h_9 hclass => exact .inr (.inl ⟨hclass, rfl⟩)
  case h_15 hclass => exact .inr (.inr (.inl ⟨hclass, rfl⟩))
  case h_16 => exact .inr (.inr (.inr (.inl ⟨eq_0xF_of_notMem (by simp_all), rfl⟩)))
  all_goals refine .inr (.inr (.inr (.inr ?_)))
  case h_12 hclass =>
    exact ⟨by simp [hclass], _, rfl, formatA_of_fields hclass, beq_iff_eq.2 (decodeFields_nnn_top w)⟩
  case h_2 hclass | h_3 hclass | h_11 hclass =>
    exact ⟨by simp [hclass], _, rfl, formatA_of_fields hclass, rfl⟩
  case h_6 hclass | h_10 hclass | h_14 hclass =>
    exact ⟨by simp [hclass], _, rfl, formatXY_of_fields hclass rfl, rfl⟩
  case h_4 hclass | h_5 hclass | h_7 hclass | h_8 hclass | h_13 hclass =>
    exact ⟨by simp [hclass], _, rfl, formatXI_of_fields hclass rfl, rfl⟩

/-- Settles O4: each class spells the word back. -/
theorem encodeOfDecodeIsTheWord : Obligations.EncodeOfDecodeIsTheWord := by
  intro w i hd
  obtain ⟨hclass, h⟩ | ⟨hclass, h⟩ | ⟨hclass, h⟩ | ⟨hclass, h⟩ | ⟨-, j, h, hj⟩ := decodeWord_cases w
  · exact spells_of_dispatchClass0 hclass (h ▸ hd)
  · exact spells_of_dispatchClass8 hclass (h ▸ hd)
  · exact spells_of_dispatchClassE hclass (h ▸ hd)
  · exact spells_of_dispatchClassF hclass (h ▸ hd)
  · cases h.symm.trans hd
    exact hj

/-! Words without a handler -/

section
variable (d : Fields)

/-- Class 0x0 has a handler exactly for its two keys (R76, R78). -/
theorem dispatchClass0_ok_iff : (∃ i, dispatchClass0 d = .ok i) ↔ d.nn ∈ [0xE0#8, 0xEE#8] := by
  unfold dispatchClass0
  split <;> simp_all

/-- Class 0x8 has a handler exactly for its nine keys (R76). -/
theorem dispatchClass8_ok_iff : (∃ i, dispatchClass8 d = .ok i) ↔
    d.n ∈ [0x0#4, 0x1#4, 0x2#4, 0x3#4, 0x4#4, 0x5#4, 0x6#4, 0x7#4, 0xE#4] := by
  unfold dispatchClass8
  split <;> simp_all

/-- The other keys of class 0x8 are the seven R78 lists. -/
theorem mem_classKeys8_iff (n : Nibble) : n ∈ [0x0#4, 0x1#4, 0x2#4, 0x3#4, 0x4#4, 0x5#4, 0x6#4, 0x7#4, 0xE#4] ↔
    n ∉ [0x8#4, 0x9#4, 0xA#4, 0xB#4, 0xC#4, 0xD#4, 0xF#4] := by
  decide +revert

/-- Class 0xE has a handler exactly for its two keys (R76, R78). -/
theorem dispatchClassE_ok_iff : (∃ i, dispatchClassE d = .ok i) ↔ d.nn ∈ [0x9E#8, 0xA1#8] := by
  unfold dispatchClassE
  split <;> simp_all

/-- Class 0xF has a handler exactly for its nine keys (R76, R78). -/
theorem dispatchClassF_ok_iff : (∃ i, dispatchClassF d = .ok i) ↔
    d.nn ∈ [0x07#8, 0x0A#8, 0x15#8, 0x18#8, 0x1E#8, 0x29#8, 0x33#8, 0x55#8, 0x65#8] := by
  unfold dispatchClassF
  split <;> simp_all

end

open Machine in
/-- A word decodes exactly when its key is not one of R78. -/
theorem decodeWord_ok_iff (w : Word) : (∃ i, decodeWord w = .ok i) ↔ ¬ illegalKey (decodeFields w) := by
  unfold illegalKey
  obtain ⟨hclass, h⟩ | ⟨hclass, h⟩ | ⟨hclass, h⟩ | ⟨hclass, h⟩ | ⟨hclass, j, h, -⟩ := decodeWord_cases w
  · rw [h, dispatchClass0_ok_iff]
    simp [hclass, -List.mem_cons]
  · rw [h, dispatchClass8_ok_iff, mem_classKeys8_iff]
    simp [hclass, -List.mem_cons]
  · rw [h, dispatchClassE_ok_iff]
    simp [hclass, -List.mem_cons]
  · rw [h, dispatchClassF_ok_iff]
    simp [hclass, -List.mem_cons]
  · simp only [List.mem_cons, not_or] at hclass
    simp [h, hclass]

/-! The opcode table (R82) -/

open Laws in
/-- The word of every instruction lies in its row, and the row is one of the table's: the family EncodeInRow. -/
theorem encode_in_row : ∀ i : Instr, EncodeInRow.Statement i
  | .cls _ => EncodeInRow.cls _
  | .ret _ => EncodeInRow.ret _
  | .jp _ => EncodeInRow.jp _
  | .call _ => EncodeInRow.call _
  | .seImm _ _ => EncodeInRow.seImm _ _
  | .sneImm _ _ => EncodeInRow.sneImm _ _
  | .seReg _ _ _ => EncodeInRow.seReg _ _ _
  | .ldImm _ _ => EncodeInRow.ldImm _ _
  | .addImm _ _ => EncodeInRow.addImm _ _
  | .ldReg _ _ => EncodeInRow.ldReg _ _
  | .orReg _ _ => EncodeInRow.orReg _ _
  | .andReg _ _ => EncodeInRow.andReg _ _
  | .xorReg _ _ => EncodeInRow.xorReg _ _
  | .addReg _ _ => EncodeInRow.addReg _ _
  | .subReg _ _ => EncodeInRow.subReg _ _
  | .shrReg _ _ => EncodeInRow.shrReg _ _
  | .subnReg _ _ => EncodeInRow.subnReg _ _
  | .shlReg _ _ => EncodeInRow.shlReg _ _
  | .sneReg _ _ _ => EncodeInRow.sneReg _ _ _
  | .ldI _ => EncodeInRow.ldI _
  | .jpV0 _ _ => EncodeInRow.jpV0 _ _
  | .rnd _ _ => EncodeInRow.rnd _ _
  | .drw _ _ _ => EncodeInRow.drw _ _ _
  | .skp _ => EncodeInRow.skp _
  | .sknp _ => EncodeInRow.sknp _
  | .ldVxDt _ => EncodeInRow.ldVxDt _
  | .ldVxK _ => EncodeInRow.ldVxK _
  | .ldDtVx _ => EncodeInRow.ldDtVx _
  | .ldStVx _ => EncodeInRow.ldStVx _
  | .addI _ => EncodeInRow.addI _
  | .ldF _ => EncodeInRow.ldF _
  | .ldB _ => EncodeInRow.ldB _
  | .storeRegs _ => EncodeInRow.storeRegs _
  | .loadRegs _ => EncodeInRow.loadRegs _

/-- The fields of a masked word are the masked fields (R71). -/
theorem decodeFields_and (w mask : Word) :
    (decodeFields (w &&& mask)).opcodeClass = (decodeFields w).opcodeClass &&& (decodeFields mask).opcodeClass ∧
    (decodeFields (w &&& mask)).n = (decodeFields w).n &&& (decodeFields mask).n ∧
    (decodeFields (w &&& mask)).nn = (decodeFields w).nn &&& (decodeFields mask).nn :=
  ⟨BitVec.extractLsb'_and .., BitVec.extractLsb'_and .., BitVec.extractLsb'_and ..⟩

open Machine in
/-- The pattern of every row has a handler, and the mask keeps the class and the second key of the classes that have one. -/
theorem opcodeTable_keys : ∀ row ∈ opcodeTable,
    ¬ illegalKey (decodeFields row.pattern) ∧ (decodeFields row.mask).opcodeClass = 0xF ∧
    ((decodeFields row.pattern).opcodeClass = 0x8 → (decodeFields row.mask).n = 0xF) ∧
    ((decodeFields row.pattern).opcodeClass ∈ [0x0#4, 0xE#4, 0xF#4] → (decodeFields row.mask).nn = 0xFF) := by
  unfold illegalKey
  decide

open Machine in
/-- Whether a key has a handler is settled by the class and its second key (R75). -/
theorem illegalKey_of_sameKey {d e : Fields} (h : illegalKey d) (hclass : d.opcodeClass = e.opcodeClass)
    (hn : e.opcodeClass = 0x8 → d.n = e.n) (hnn : e.opcodeClass ∈ [0x0#4, 0xE#4, 0xF#4] → d.nn = e.nn) :
    illegalKey e := by
  obtain ⟨hc, hk⟩ | ⟨hc, hk⟩ | ⟨hc, hk⟩ | ⟨hc, hk⟩ := h <;> rw [hclass] at hc
  · exact .inl ⟨hc, hnn (by simp [hc]) ▸ hk⟩
  · exact .inr (.inl ⟨hc, hn hc ▸ hk⟩)
  · exact .inr (.inr (.inl ⟨hc, hnn (by simp [hc]) ▸ hk⟩))
  · exact .inr (.inr (.inr ⟨hc, hnn (by simp [hc]) ▸ hk⟩))

open Machine in
/-- A word in a row of the table has a handler: it has the key of the row's pattern. -/
theorem not_illegalKey_of_covers {row : OpcodeRow} {w : Word} (hrow : row ∈ opcodeTable) (h : row.covers w = true) :
    ¬ illegalKey (decodeFields w) := by
  obtain ⟨hlegal, hmask, hmaskn, hmasknn⟩ := opcodeTable_keys row hrow
  have hp : w &&& row.mask = row.pattern := eq_of_beq h
  obtain ⟨hclass, hn, hnn⟩ := hp ▸ decodeFields_and w row.mask
  refine fun hill => hlegal (illegalKey_of_sameKey hill ?_ (fun hc => ?_) fun hc => ?_)
  · rw [hclass, hmask]; exact BitVec.and_allOnes.symm
  · rw [hn, hmaskn hc]; exact BitVec.and_allOnes.symm
  · rw [hnn, hmasknn hc]; exact BitVec.and_allOnes.symm

/-- Two rows with a common word agree where both masks look. -/
theorem OpcodeRow.and_mask_eq_of_covers {row other : OpcodeRow} {w : Word} (h : row.covers w = true)
    (h' : other.covers w = true) : row.pattern &&& other.mask = other.pattern &&& row.mask := by
  rw [← eq_of_beq h, ← eq_of_beq h', BitVec.and_assoc, BitVec.and_assoc, BitVec.and_comm row.mask]

/-- Any two rows differ where both masks look. -/
theorem opcodeTable_pairwise :
    opcodeTable.Pairwise fun row other => row.pattern &&& other.mask ≠ other.pattern &&& row.mask := by
  decide

/-- Settles O5: the row of a decoded instruction covers its word, a covered word has a handler, and two rows differ on bits
that both fix. -/
theorem tableRowsPartitionTheLegalWords : Obligations.TableRowsPartitionTheLegalWords := by
  have hcovers : ∀ (w : Word) (i : Instr), decodeWord w = .ok i → i.row ∈ opcodeTable ∧ i.row.covers w = true := by
    intro w i hd
    obtain ⟨hcov, hmem⟩ := encode_in_row i
    rw [(encodeOfDecodeIsTheWord w i hd).1] at hcov
    exact ⟨hmem, hcov⟩
  refine ⟨fun w => ⟨fun ⟨i, hd⟩ => ⟨i.row, hcovers w i hd⟩, fun ⟨row, hrow, h⟩ => ?_⟩, hcovers, ?_⟩
  · exact (decodeWord_ok_iff w).2 (not_illegalKey_of_covers hrow h)
  · exact opcodeTable_pairwise.imp fun hne w ⟨h, h'⟩ => hne (OpcodeRow.and_mask_eq_of_covers h h')

/-- Settles O1: twelve words of the spec's decode vectors, evaluated. -/
theorem sampleWordsDecode : Obligations.SampleWordsDecode := by
  unfold Obligations.SampleWordsDecode
  decide

end Sys2Proof
end

section
/-! PROOFS. The step (40_engine_cycle.md, 60_exceptions.md): what it answers in each status, that faults are precise, and
what every step keeps. -/

namespace Sys2Proof

/-- Two bytes decode as the word they make (R57, R70). -/
theorem decode_pair_iff {hi lo : Byte} {i : Instr} :
    decode [hi, lo] = .ok (i, []) ↔ decodeWord (wordOfBytes hi lo) = .ok i := by
  simp only [decode]
  cases decodeWord (wordOfBytes hi lo) <;> simp

namespace Machine

/-! The step, status by status -/

section
variable {s t : State}

/-- A step of a halted engine, and one that is not requested, only takes the input sample (R90, R97). -/
theorem step_of_idle (h : s.status = .halted ∨ ¬ s.Requested) : step s = .next s.consumeInput := by
  obtain ⟨t, ht, ⟨-, rfl⟩ | ⟨hreq, hto⟩⟩ := step_cases s
  · exact ht
  · have hs : s.status = .halted := h.resolve_right (not_not_intro hreq)
    cases hto with
    | halted => exact ht
    | poll hw => simp [hs] at hw
    | badPc hr => simp [hs] at hr
    | unknown hr => simp [hs] at hr
    | run hr => simp [hs] at hr

/-- A requested step in WAIT_RELEASE polls the latched key (R96). -/
theorem step_of_waitRelease (hs : s.status = .waitRelease) (hreq : s.Requested) :
    step s = .next s.pollRelease.consumeInput := by
  obtain ⟨t, ht, ⟨hidle, -⟩ | ⟨-, hto⟩⟩ := step_cases s
  · exact absurd hreq hidle
  · cases hto with
    | poll => exact ht
    | halted hh => simp [hs] at hh
    | badPc hr => simp [hs] at hr
    | unknown hr => simp [hs] at hr
    | run hr => simp [hs] at hr

/-- A requested step in RUN of a word that decodes executes the instruction and lets it count (R91 to R95). -/
theorem step_of_decodeWord_ok {i : Instr} (hrun : s.status = .run) (hreq : s.Requested) (hpc : LegalFetch s.pc)
    (hd : decodeWord s.fetchWord = .ok i) :
    step s = mapNext (fun u => u.retire.consumeInput) (exec i s.advance) := by
  obtain ⟨t, ht, ⟨hidle, -⟩ | ⟨-, hto⟩⟩ := step_cases s
  · exact absurd hreq hidle
  · cases hto with
    | run _ _ j u hj hu =>
      cases hd.symm.trans hj
      rw [ht, hu]
      rfl
    | halted hh => simp [hrun] at hh
    | poll hw => simp [hrun] at hw
    | badPc _ hp => exact absurd hpc hp
    | unknown _ _ e he => simp [hd] at he

/-- Everything a next state can be, in the form a proof about a given one uses (R90, R91). -/
theorem step_next_cases (h : step s = .next t) :
    ∃ u, t = u.consumeInput ∧ ((¬ s.Requested ∧ u = s) ∨ (s.Requested ∧ StepTo s u)) := by
  obtain ⟨u, hu, hcases⟩ := step_cases s
  cases hu.symm.trans h
  exact ⟨u, rfl, hcases⟩

/-- Everything a meaning can do, in the form a proof about a given next state uses. -/
theorem exec_next_cases {i : Instr} (h : exec i s = .next t) :
    (∃ cause info, RaisedBy i s cause info ∧ t = s.raiseIn i cause info) ∨
      (∃ k x, i = .ldVxK x ∧ t = s.latchKey k x) ∨ Completed s t := by
  obtain ⟨u, hu, hcases⟩ := exec_cases i s
  cases hu.symm.trans h
  exact hcases

/-- Retiring is the timer hook, in RUN only (R91, R95, log 11). -/
theorem State.retire_eq (s : State) : s.retire = if s.status = .run then s.timerHook else s := by
  unfold State.retire
  split <;> simp_all

theorem State.retire_of_run {s : State} (h : s.status = .run) : s.retire = s.timerHook := by
  rw [State.retire_eq, if_pos h]

/-- What becomes of a decoded instruction in RUN: it raises, or it waits for a key, and does not count; or it completes
and counts (R91, R95, R189). -/
theorem retire_exec_cases {i : Instr} {u : State} (hrun : s.status = .run) (hu : exec i s.advance = .next u) :
    (∃ cause info, RaisedBy i s.advance cause info ∧ u.retire = s.advance.raiseIn i cause info) ∨
      (∃ k x, u.retire = s.advance.latchKey k x) ∨
      (Completed s.advance u ∧ u.status = .run ∧ u.retire = u.timerHook) := by
  obtain ⟨cause, info, hraised, rfl⟩ | ⟨k, x, -, rfl⟩ | hdone := exec_next_cases hu
  · exact .inl ⟨cause, info, hraised, rfl⟩
  · exact .inr (.inl ⟨k, x, rfl⟩)
  · have hstatus : u.status = .run := hdone.status.trans hrun
    exact .inr (.inr ⟨hdone, hstatus, State.retire_of_run hstatus⟩)

/-- A meaning raises no cause that is the step's own, and never the empty one (R182, R186). -/
theorem RaisedBy.cause_ne {i : Instr} {cause : FaultCause} {info : Word} (h : RaisedBy i s cause info) :
    cause ≠ .none ∧ cause ≠ .badProgramCounter := by
  cases h <;> exact ⟨nofun, nofun⟩

end

/-! The timer hook's fields -/

section
variable (s : State)

@[simp] theorem State.timerHook_pc : s.timerHook.pc = s.pc := by rw [s.timerHook_frame]
@[simp] theorem State.timerHook_status : s.timerHook.status = s.status := by rw [s.timerHook_frame]
@[simp] theorem State.timerHook_mem : s.timerHook.mem = s.mem := by rw [s.timerHook_frame]
@[simp] theorem State.timerHook_quirkMode : s.timerHook.quirkMode = s.quirkMode := by rw [s.timerHook_frame]
@[simp] theorem State.timerHook_rateOver60 : s.timerHook.rateOver60 = s.rateOver60 := by rw [s.timerHook_frame]
@[simp] theorem State.timerHook_tickDiv : s.timerHook.tickDiv = s.tickDiv := by rw [s.timerHook_frame]; rfl

/-- TICKCNT after the hook (R196). -/
theorem State.timerHook_tickcnt :
    s.timerHook.tickcnt = if s.tickDiv ≤ s.tickcnt + 1 then 0 else s.tickcnt + 1 := by
  obtain ⟨hdiv, h⟩ | ⟨hdiv, h⟩ := s.timerHook_cases
  · rw [h, if_pos hdiv]
  · rw [h, if_neg (Nat.not_le.2 hdiv)]

/-- The poll never halts (R96, the spec's decision D13). -/
theorem State.pollRelease_status : s.pollRelease.status = if s.keyReleased s.kwKey then .run else s.status := by
  obtain ⟨hkey, h⟩ | ⟨hkey, h⟩ := s.pollRelease_cases <;> simp [h, hkey]

end

/-! The release of the latched key (R96) -/

/-- What a release makes of a waiting state before the timer hook (R96). -/
def State.released (s : State) : State := { s.setReg s.kwX (BitVec.ofNat 8 s.kwKey.val) with status := .run }

section
variable (s : State)

theorem State.pollRelease_of_released (h : s.keyReleased s.kwKey = true) : s.pollRelease = s.released.timerHook := by
  rw [State.pollRelease, if_pos h]
  rfl

/-- The latched register holds the key's number. -/
theorem State.released_reg_kwX : (s.released.reg s.kwX).toNat = s.kwKey.val := by
  have hkey := s.kwKey.isLt
  change ((s.setReg s.kwX (BitVec.ofNat 8 s.kwKey.val)).reg s.kwX).toNat = _
  rw [State.setReg_reg_same, BitVec.toNat_ofNat]
  omega

/-- No other register changes. -/
theorem State.released_reg_other {r : Reg} (h : r ≠ s.kwX) : s.released.reg r = s.reg r :=
  State.setReg_reg_other s s.kwX r _ h

end

/-! What a requested step does to the timers and to the engine -/

section
variable {s u : State}

/-- A requested step ends in RUN and moves the prescaler by the hook's rule, or it leaves the timer unit alone (R199). -/
theorem StepTo.counts_or_keepsTimers (h : StepTo s u) :
    (u.status = .run ∧ s.status ≠ .halted ∧
      u.tickcnt = if s.tickDiv ≤ s.tickcnt + 1 then 0 else s.tickcnt + 1) ∨
    ((s.status = .halted ∨ u.status ≠ .run) ∧ u.tickcnt = s.tickcnt ∧ u.dt = s.dt ∧ u.st = s.st) := by
  cases h with
  | halted hs => exact .inr ⟨.inl hs, rfl, rfl, rfl⟩
  | poll hs =>
    cases hkey : s.keyReleased s.kwKey with
    | true =>
      rw [s.pollRelease_of_released hkey]
      exact .inl ⟨State.timerHook_status _, by simp [hs], State.timerHook_tickcnt _⟩
    | false =>
      rw [State.pollRelease, hkey]
      exact .inr ⟨.inr (by simp [hs]), rfl, rfl, rfl⟩
  | badPc => exact .inr ⟨.inr nofun, rfl, rfl, rfl⟩
  | unknown => exact .inr ⟨.inr nofun, rfl, rfl, rfl⟩
  | run hs hp i v hd hv =>
    obtain ⟨cause, info, -, h⟩ | ⟨k, x, h⟩ | ⟨hdone, hrun, h⟩ := retire_exec_cases hs hv <;> rw [h]
    · exact .inr ⟨.inr nofun, rfl, rfl, rfl⟩
    · exact .inr ⟨.inr nofun, rfl, rfl, rfl⟩
    · have hdiv : v.tickDiv = s.tickDiv := by
        simp only [State.tickDiv, State.instructionRate, hdone.rateOver60]
        rfl
      have htick : v.tickcnt = s.tickcnt := hdone.tickcnt
      exact .inl ⟨(State.timerHook_status v).trans hrun, by simp [hs], by rw [State.timerHook_tickcnt, hdiv, htick]⟩

/-- A requested step that halts a working engine is the check of `pc`, or a raise of another cause behind the advance, the
record holding the fetch address (R92, R182, R187). -/
theorem StepTo.halted_cases (h : StepTo s u) (hs : s.status ≠ .halted) (hu : u.status = .halted) :
    (s.status = .run ∧ ¬ LegalFetch s.pc ∧ u = s.raiseBadPc) ∨
    (s.status = .run ∧ LegalFetch s.pc ∧ ∃ cause info word, cause ≠ .badProgramCounter ∧
      u = s.advance.raise cause info s.pc word) := by
  cases h with
  | halted hh => exact absurd hh hs
  | poll hw =>
    rw [State.pollRelease_status] at hu
    split at hu
    · cases hu
    · exact absurd hu hs
  | badPc hrun hp => exact .inl ⟨hrun, hp, rfl⟩
  | unknown hrun hp =>
    exact .inr ⟨hrun, hp, .unknownInstruction, s.fetchWord, s.fetchWord, nofun,
      by rw [State.raiseUnknown, State.advance_ownAddress]⟩
  | run hrun hp i v hd hv =>
    obtain ⟨cause, info, hraised, h⟩ | ⟨k, x, h⟩ | ⟨-, hv', h⟩ := retire_exec_cases hrun hv <;> rw [h] at hu ⊢
    · exact .inr ⟨hrun, hp, _, _, _, hraised.cause_ne.2, by rw [State.raiseIn, State.advance_ownAddress]⟩
    · cases hu
    · rw [State.timerHook_status, hv'] at hu
      cases hu

end

end Machine

open Machine

/-- Settles O7: decoding the two bytes is decoding the fetched word. -/
theorem stepRunsTheDecodedInstruction : Obligations.StepRunsTheDecodedInstruction := by
  intro s i hrun hreq hpc hd
  rw [step_of_decodeWord_ok hrun hreq hpc (decode_pair_iff.1 hd)]
  simp only [State.retire_eq]
  rfl

/-- Settles O8: the check comes first. -/
theorem badProgramCounterHaltsBeforeTheFetch : Obligations.BadProgramCounterHaltsBeforeTheFetch :=
  fun _ hrun hreq hpc => ⟨_, step_of_not_legalFetch hrun hreq hpc, rfl⟩

/-- Settles O9: such a step only takes the input sample. -/
theorem haltedOrUnrequestedStepChangesNothing : Obligations.HaltedOrUnrequestedStepChangesNothing :=
  fun _ h => ⟨_, step_of_idle h, rfl⟩

/-- Settles O10, by the two outcomes of the poll. -/
theorem waitReleaseStepPollsTheLatchedKey : Obligations.WaitReleaseStepPollsTheLatchedKey := by
  intro s hs hreq
  rw [step_of_waitRelease hs hreq]
  obtain ⟨hkey, h⟩ | ⟨hkey, h⟩ := s.pollRelease_cases <;> rw [h]
  · refine ⟨fun _ => ⟨s.released, _, rfl, rfl, s.released_reg_kwX, fun r hr => s.released_reg_other hr, rfl, rfl⟩, ?_⟩
    exact fun hheld => absurd (hkey.symm.trans hheld) nofun
  · exact ⟨fun hreleased => absurd (hkey.symm.trans hreleased) nofun, fun _ => ⟨_, rfl, rfl⟩⟩

/-- Settles O6: a word without a handler raises after the advance, and every other word has one. -/
theorem illegalWordsRaiseUnknownInstruction : Obligations.IllegalWordsRaiseUnknownInstruction := by
  intro s hrun hreq hpc
  refine ⟨fun hill => ?_, (decodeWord_ok_iff _).2⟩
  cases hd : decodeWord s.fetchWord with
  | ok i => exact absurd hill ((decodeWord_ok_iff _).1 ⟨i, hd⟩)
  | error e =>
    refine ⟨_, step_of_decodeWord_error hrun hreq hpc hd, ?_⟩
    rw [State.raiseUnknown, State.advance_ownAddress]
    rfl

/-- Settles O13: each outcome of `step_cases` is a next state. -/
theorem everyStepAnswersNext : Obligations.EveryStepAnswersNext := fun s =>
  let ⟨_, ht, _⟩ := step_cases s
  ⟨_, ht⟩

/-- Settles O11: what counts ends in RUN, and what ends elsewhere has not reached the hook. -/
theorem onlyCompletedInstructionsMoveThePrescaler : Obligations.OnlyCompletedInstructionsMoveThePrescaler := by
  intro s t ht
  obtain ⟨u, rfl, ⟨hidle, rfl⟩ | ⟨hreq, hto⟩⟩ := step_next_cases ht
  · exact ⟨fun ⟨hreq, _⟩ => absurd hreq hidle, fun _ => ⟨rfl, rfl, rfl⟩⟩
  · obtain ⟨hrun, hs, htick⟩ | ⟨hstay, htimers⟩ := hto.counts_or_keepsTimers
    · exact ⟨fun _ => htick, fun h => absurd h (not_or.2 ⟨not_not_intro hreq, not_or.2 ⟨hs, not_not_intro hrun⟩⟩)⟩
    · exact ⟨fun ⟨_, hs, hrun, _⟩ => absurd hstay (not_or.2 ⟨hs, not_not_intro hrun⟩), fun _ => htimers⟩

/-- Settles O12: only a running engine halts, by the check of `pc`, at dispatch or in a handler, and each writes the record
alone. -/
theorem faultingStepChangesOnlyPcAndTheRecord : Obligations.FaultingStepChangesOnlyPcAndTheRecord := by
  intro s t hs ht hhalted
  obtain ⟨u, rfl, ⟨-, rfl⟩ | ⟨-, hto⟩⟩ := step_next_cases ht
  · exact absurd hhalted hs
  obtain ⟨hrun, hp, rfl⟩ | ⟨hrun, hp, cause, info, word, hcause, rfl⟩ := hto.halted_cases hs hhalted
  · exact ⟨hrun, rfl, fun _ => rfl, fun hlegal => absurd hlegal hp, fun _ => ⟨rfl, rfl⟩⟩
  · exact ⟨hrun, rfl, fun _ => rfl, fun _ => ⟨rfl, hcause⟩, fun hillegal => absurd hp hillegal⟩

end Sys2Proof
end

section
/-! PROOFS. What every step keeps (10_state.md, 60_exceptions.md): legal states, the truth of the fault record, the
platform's parameters; the state after reset. -/

namespace Sys2Proof.Machine

/-! Legal states -/

section
variable {s t : State}

/-- Legality is about the block, not about the input samples. -/
theorem State.Legal.consumeInput (h : s.Legal) : s.consumeInput.Legal :=
  ⟨h.mem_wf, h.tickcnt_lt, h.fault_iff, h.fault_empty, h.stack_entries, h.wait_pc⟩

/-- The advance keeps a running state legal: `pc` matters in WAIT_RELEASE only. -/
theorem State.Legal.advance (h : s.Legal) (hrun : s.status = .run) : s.advance.Legal :=
  ⟨h.mem_wf, h.tickcnt_lt, h.fault_iff, h.fault_empty, h.stack_entries, fun hw => by simp [State.advance, hrun] at hw⟩

/-- The hook keeps the prescaler in its range (R33, R196). -/
theorem State.Legal.timerHook (h : s.Legal) : s.timerHook.Legal := by
  rw [s.timerHook_frame]
  exact ⟨h.mem_wf, s.timerHook_tickcnt_lt, h.fault_iff, h.fault_empty, h.stack_entries, h.wait_pc⟩

/-- A raise records a cause and halts (R187). -/
theorem State.Legal.raise (h : s.Legal) {cause : FaultCause} (hcause : cause ≠ .none) (info addr word : Word) :
    (s.raise cause info addr word).Legal :=
  ⟨h.mem_wf, h.tickcnt_lt, ⟨fun hc => absurd hc hcause, fun hne => absurd rfl hne⟩, fun hc => absurd hc hcause,
    h.stack_entries, nofun⟩

/-- The key wait begins behind its instruction (R96, R153). -/
theorem State.Legal.latchKey (h : s.Legal) (hrun : s.status = .run) (hpc : AfterFetch s.pc) (k : Key) (x : Reg) :
    (s.latchKey k x).Legal :=
  ⟨h.mem_wf, h.tickcnt_lt, ⟨fun _ => nofun, fun _ => h.fault_iff.2 (by simp [hrun])⟩, h.fault_empty, h.stack_entries,
    fun _ => hpc⟩

/-- The release ends the wait (R96). -/
theorem State.Legal.released (h : s.Legal) (hw : s.status = .waitRelease) : s.released.Legal :=
  ⟨h.mem_wf, h.tickcnt_lt, ⟨fun _ => nofun, fun _ => h.fault_iff.2 (by simp [hw])⟩, h.fault_empty, h.stack_entries,
    nofun⟩

/-- A poll keeps a waiting state legal (R96). -/
theorem State.Legal.pollRelease (h : s.Legal) (hw : s.status = .waitRelease) : s.pollRelease.Legal := by
  cases hkey : s.keyReleased s.kwKey with
  | true =>
    rw [s.pollRelease_of_released hkey]
    exact (h.released hw).timerHook
  | false =>
    rw [State.pollRelease, hkey]
    exact h

/-- A completed store keeps the canonical form, and so does no store. -/
theorem Completed.mem_wf (h : Completed s t) (hs : s.mem.wf) : t.mem.wf := by
  obtain hmem | ⟨bytes, hin, hmem⟩ := h.mem <;> rw [hmem]
  · exact hs
  · exact Memory.writeBytes_wf hs _ _ hin

/-- A completed push leaves the advanced `pc` as the newest entry, and nothing else adds one (R24, R101). -/
theorem Completed.stack_entries (h : Completed s t) (hpc : AfterFetch s.pc)
    (hs : ∀ j : Fin 16, j.val < s.sp.val → AfterFetch (s.stack.get j)) (j : Fin 16) (hj : j.val < t.sp.val) :
    AfterFetch (t.stack.get j) := by
  obtain ⟨hstack, hsp⟩ | ⟨hroom, hstack, hsp⟩ := h.stack <;> rw [hstack]
  · exact hs j (by omega)
  · by_cases hnew : s.sp.val = j.val
    · simpa [Vector.get_eq_getElem, hnew] using hpc
    · simpa [Vector.get_eq_getElem, Vector.getElem_set_ne, hnew] using hs j (by omega)

/-- A completed instruction keeps a running state legal. -/
theorem State.Legal.completed (h : s.Legal) (hrun : s.status = .run) (hpc : AfterFetch s.pc) (hdone : Completed s t) :
    t.Legal where
  mem_wf := hdone.mem_wf h.mem_wf
  tickcnt_lt := by
    have hlt := h.tickcnt_lt
    simp only [State.tickDiv, State.instructionRate] at hlt ⊢
    rwa [hdone.tickcnt, hdone.rateOver60]
  fault_iff := by rw [hdone.fault, hdone.status]; exact h.fault_iff
  fault_empty := by rw [hdone.fault]; exact h.fault_empty
  stack_entries := hdone.stack_entries hpc h.stack_entries
  wait_pc := fun hw => by simp [hdone.status, hrun] at hw

/-- A requested step keeps a state legal. -/
theorem StepTo.legal (hto : StepTo s t) (h : s.Legal) : t.Legal := by
  cases hto with
  | halted => exact h
  | poll hw => exact h.pollRelease hw
  | badPc => exact h.raise (cause := .badProgramCounter) nofun _ _ _
  | unknown hrun => exact (h.advance hrun).raise (cause := .unknownInstruction) nofun _ _ _
  | run hrun hp i u hd hu =>
    have hadv := h.advance hrun
    obtain ⟨hpc, -⟩ := State.advance_afterFetch hp
    obtain ⟨cause, info, hraised, ht⟩ | ⟨k, x, ht⟩ | ⟨hdone, -, ht⟩ := retire_exec_cases hrun hu <;> rw [ht]
    · exact hadv.raise hraised.cause_ne.1 _ _ _
    · exact hadv.latchKey hrun hpc k x
    · exact (hadv.completed hrun hpc hdone).timerHook

/-- Every step keeps a state legal. -/
theorem State.Legal.step (h : s.Legal) (ht : step s = .next t) : t.Legal := by
  obtain ⟨u, rfl, ⟨-, rfl⟩ | ⟨-, hto⟩⟩ := step_next_cases ht
  · exact h.consumeInput
  · exact (hto.legal h).consumeInput

end

end Sys2Proof.Machine

namespace Sys2Proof
open Machine

/-- Settles O14: each outcome of a step keeps each clause. -/
theorem stepKeepsLegalStates : Obligations.StepKeepsLegalStates := fun _ _ h ht => h.step ht

namespace Machine

/-! The fault record -/

section
variable {s t : State}

/-- A state that is not halted has no record to tell the truth. -/
theorem State.faultTruth_of_not_halted (h : s.status ≠ .halted) : s.FaultTruth := fun hh => absurd hh h

/-- What the record of a fault behind the fetch says of the place: its address is a legal fetch address, `pc` is past it
and memory holds its word there (R187). -/
theorem advance_raise_place (hp : LegalFetch s.pc) (cause : FaultCause) (info : Word) :
    LegalFetch s.pc ∧ (s.advance.raise cause info s.pc s.fetchWord).pc = s.pc + 2 ∧
      s.fetchWord = (s.advance.raise cause info s.pc s.fetchWord).wordAt s.pc :=
  ⟨hp, rfl, rfl⟩

/-- A raise of a handler tells the truth, cause by cause (R183 to R185, R188). -/
theorem RaisedBy.faultTruth {i : Instr} {cause : FaultCause} {info : Word} (h : RaisedBy i s.advance cause info)
    (hp : LegalFetch s.pc) (hd : decodeWord s.fetchWord = .ok i) : (s.advance.raiseIn i cause info).FaultTruth := by
  intro _
  have hword : encode i = s.fetchWord := (encodeOfDecodeIsTheWord _ i hd).1
  rw [State.raiseIn, State.advance_ownAddress, hword]
  have hplace := advance_raise_place hp cause info
  cases h with
  | overflow nnn hi full => exact ⟨hplace, rfl, full, nnn, hi ▸ hd⟩
  | underflow x hi empty => exact ⟨hplace, rfl, empty, x, hi ▸ hd⟩
  | key x hi above =>
    refine ⟨hplace, x, ?_, above, byteToWord_toNat _⟩
    obtain rfl | rfl := hi
    · exact .inl hd
    · exact .inr hd
  | address outside =>
    have hout := mt (inMemory_iff s.index.toNat (accessBytes i)).2 (Bool.eq_false_iff.1 outside)
    refine ⟨hplace, rfl, i, hd, by omega, ?_⟩
    change 0xFFF < s.index.toNat + accessBytes i - 1
    omega

/-- A requested step keeps a halted record true, and writes only true ones. -/
theorem StepTo.faultTruth (hto : StepTo s t) (h : s.FaultTruth) : t.FaultTruth := by
  cases hto with
  | halted => exact h
  | poll hw =>
    refine State.faultTruth_of_not_halted ?_
    rw [State.pollRelease_status]
    split <;> simp [hw]
  | badPc _ hp => exact fun _ => ⟨hp, rfl, rfl, rfl⟩
  | unknown _ hp e hd =>
    have hill : illegalKey (decodeFields s.fetchWord) := by
      by_contra hlegal
      obtain ⟨i, hi⟩ := (decodeWord_ok_iff _).2 hlegal
      simp [hi] at hd
    rw [State.raiseUnknown, State.advance_ownAddress]
    exact fun _ => ⟨advance_raise_place hp _ _, rfl, hill⟩
  | run hrun hp i u hd hu =>
    obtain ⟨cause, info, hraised, ht⟩ | ⟨k, x, ht⟩ | ⟨-, hu', ht⟩ := retire_exec_cases hrun hu <;> rw [ht]
    · exact hraised.faultTruth hp hd
    · exact State.faultTruth_of_not_halted nofun
    · exact State.faultTruth_of_not_halted (by simp [hu'])

end

end Machine

/-- Settles O15: a record is written true, and a halted state no longer changes. -/
theorem stepKeepsTheFaultRecordTrue : Obligations.StepKeepsTheFaultRecordTrue := by
  intro s t h ht
  obtain ⟨u, rfl, ⟨-, rfl⟩ | ⟨-, hto⟩⟩ := step_next_cases ht
  · exact h
  · exact hto.faultTruth h

/-! Reset -/

namespace Machine

/-- The state after reset is legal (R38). -/
theorem State.resetWith_legal (strap : QuirkMode) (rate : Nat) (font : Config.Font) :
    (State.resetWith strap rate font).Legal where
  mem_wf := Memory.reset_wf font
  tickcnt_lt := State.tickDiv_pos _
  fault_iff := ⟨fun _ => nofun, fun _ => rfl⟩
  fault_empty := fun _ => rfl
  stack_entries := nofun
  wait_pc := nofun

/-- The state after reset is not halted, so its record is true (R38). -/
theorem State.resetWith_faultTruth (strap : QuirkMode) (rate : Nat) (font : Config.Font) :
    (State.resetWith strap rate font).FaultTruth := State.faultTruth_of_not_halted nofun

end Machine

/-- Settles O16; `State.reset` is one of the states after reset. -/
theorem resetStateIsLegal : Obligations.ResetStateIsLegal :=
  ⟨fun strap rate font => ⟨State.resetWith_legal strap rate font, State.resetWith_faultTruth strap rate font⟩,
    State.resetWith_legal _ _ _, State.resetWith_faultTruth _ _ _⟩

/-- Settles O17: memory by its background, the other fields by the table's own values. -/
theorem resetLeavesTheTableOfValues : Obligations.ResetLeavesTheTableOfValues := by
  intro strap rate font
  refine ⟨fun a ha => Memory.background_zero _ a ha, fun j hj => Memory.background_font _ j hj, rfl, fun r => ?regs, rfl, rfl,
    rfl, rfl, fun r c => ?pixels, rfl, rfl, rfl, rfl, rfl, rfl, rfl, rfl, rfl⟩
  case regs => simp [State.resetWith, State.reg, Vector.get_eq_getElem]
  case pixels => exact Display.clear_pixel r c.val

/-! Runs -/

namespace Machine

/-- What every step keeps, every run keeps. -/
theorem run_keeps {P : State → Prop} (hstep : ∀ s t, P s → step s = .next t → P t) :
    ∀ (n : Nat) (s t : State), P s → Host.Core.run core n s = .next t → P t := by
  intro n
  induction n with
  | zero =>
    intro s t hs h
    cases (run_zero s).symm.trans h
    exact hs
  | succ n ih =>
    intro s t hs h
    obtain ⟨u, hu⟩ := everyStepAnswersNext s
    rw [run_succ n hu] at h
    exact ih u t (hstep s u hs hu) h

/-- The platform's parameters: the strap, the rate and FONT (R8). -/
def State.SameParameters (s t : State) : Prop :=
  t.quirkMode = s.quirkMode ∧ t.rateOver60 = s.rateOver60 ∧ t.mem.font = s.mem.font

section
variable {s t : State}

theorem State.SameParameters.trans {u : State} (h : s.SameParameters t) (h' : t.SameParameters u) : s.SameParameters u := by
  obtain ⟨hmode, hrate, hfont⟩ := h
  obtain ⟨hmode', hrate', hfont'⟩ := h'
  exact ⟨hmode'.trans hmode, hrate'.trans hrate, hfont'.trans hfont⟩

/-- The hook changes no parameter. -/
theorem State.SameParameters.timerHook (h : s.SameParameters t) : s.SameParameters t.timerHook := by
  simpa [State.SameParameters] using h

/-- No completed instruction changes a parameter. -/
theorem Completed.sameParameters (h : Completed s t) : s.SameParameters t := by
  refine ⟨h.quirkMode, h.rateOver60, ?_⟩
  obtain hmem | ⟨bytes, -, hmem⟩ := h.mem <;> simp [hmem]

/-- No requested step changes a parameter. -/
theorem StepTo.sameParameters (hto : StepTo s t) : s.SameParameters t := by
  cases hto with
  | halted => exact ⟨rfl, rfl, rfl⟩
  | poll =>
    obtain ⟨-, h⟩ | ⟨-, h⟩ := s.pollRelease_cases <;> rw [h]
    · exact State.SameParameters.timerHook ⟨rfl, rfl, rfl⟩
    · exact ⟨rfl, rfl, rfl⟩
  | badPc => exact ⟨rfl, rfl, rfl⟩
  | unknown => exact ⟨rfl, rfl, rfl⟩
  | run hrun _ i u _ hu =>
    obtain ⟨cause, info, -, h⟩ | ⟨k, x, h⟩ | ⟨hdone, -, h⟩ := retire_exec_cases hrun hu <;> rw [h]
    · exact ⟨rfl, rfl, rfl⟩
    · exact ⟨rfl, rfl, rfl⟩
    · exact hdone.sameParameters.timerHook

/-- No step changes a parameter. -/
theorem step_sameParameters (ht : step s = .next t) : s.SameParameters t := by
  obtain ⟨u, rfl, ⟨-, rfl⟩ | ⟨-, hto⟩⟩ := step_next_cases ht
  · exact ⟨rfl, rfl, rfl⟩
  · exact hto.sameParameters

end

/-- Any number of steps of a halted engine only take input samples (R97, R191). -/
theorem run_of_halted (n : Nat) : ∀ s : State, s.status = .halted →
    ∃ t, Host.Core.run core n s = .next t ∧ SameBlock s t := by
  induction n with
  | zero => exact fun s _ => ⟨s, run_zero s, rfl⟩
  | succ n ih =>
    intro s hs
    obtain ⟨t, ht, hsame⟩ := ih s.consumeInput hs
    exact ⟨t, by rw [run_succ n (step_of_idle (.inl hs)), ht], hsame⟩

end Machine

/-- Settles O20: no step changes a parameter. -/
theorem runsKeepTheStrapAndTheRate : Obligations.RunsKeepTheStrapAndTheRate := fun n s t h =>
  run_keeps (P := s.SameParameters) (fun _ _ hs ht => hs.trans (step_sameParameters ht)) n s t ⟨rfl, rfl, rfl⟩ h

/-- Settles O19: the run leaves the block as it was, and reset takes from it only its parameters. -/
theorem haltedIsForeverAndResetIsTotal : Obligations.HaltedIsForeverAndResetIsTotal := by
  intro n s hs
  obtain ⟨t, ht, hsame⟩ := run_of_halted n s hs
  refine ⟨t, ht, hsame, fun strap => ?_⟩
  rw [hsame]
  rfl

end Sys2Proof
end

section
/-! PROOFS. Registers and arithmetic (42_alu.md): loads, the random byte, logic, sums, differences and shifts. -/

namespace Sys2Proof

namespace Machine

/-! A write to one register -/

section
variable {i : Instr} {s : State} {x : Reg} {b : Byte}

/-- An instruction that only loads a register: the value, and everything else as it was (R20). -/
theorem exec_setReg (h : exec i s = .next (s.setReg x b)) :
    ∃ t, exec i s = .next t ∧ t.reg x = b ∧ (∀ r, r ≠ x → t.reg r = s.reg r) ∧ t = { s with v := t.v } ∧
      SameMemory s t :=
  ⟨_, h, s.setReg_reg_same x b, fun _ hr => s.setReg_reg_other x _ b hr, rfl, fun _ => rfl⟩

/-- The same with the value as a number. -/
theorem exec_setReg_toNat {value : Nat} (h : exec i s = .next (s.setReg x b)) (hvalue : b.toNat = value) :
    ∃ t, exec i s = .next t ∧ (t.reg x).toNat = value ∧ (∀ r, r ≠ x → t.reg r = s.reg r) ∧ t = { s with v := t.v } ∧
      SameMemory s t := by
  obtain ⟨t, ht, hx, hrest⟩ := exec_setReg h
  exact ⟨t, ht, hx ▸ hvalue, hrest⟩

end

/-! A result and its flag (R132) -/

@[simp] theorem flagByte_toNat (c : Bool) : (flagByte c).toNat = c.toNat := by
  cases c <;> rfl

section
variable (s : State) (x : Reg) (p : Byte × Bool)

/-- The flag is written last, also over the result (R132). -/
@[simp] theorem State.setResultFlag_vf : (s.setResultFlag x p).reg vf = flagByte p.2 := by
  rw [State.setResultFlag_reg, if_pos rfl]

theorem State.setResultFlag_result {x : Reg} (hx : x ≠ vf) : (s.setResultFlag x p).reg x = p.1 := by
  rw [State.setResultFlag_reg, if_neg hx, if_pos rfl]

theorem State.setResultFlag_other {r : Reg} (hx : r ≠ x) (hvf : r ≠ vf) : (s.setResultFlag x p).reg r = s.reg r := by
  rw [State.setResultFlag_reg, if_neg hvf, if_neg hx]

end

/-- An instruction that writes a result and its flag: their values in numbers, and everything else as it was (R132). -/
theorem exec_setResultFlag {i : Instr} {s : State} {x : Reg} {p : Byte × Bool} {value flag : Nat}
    (h : exec i s = .next (s.setResultFlag x p)) (hvalue : p.1.toNat = value) (hflag : p.2.toNat = flag) :
    ∃ t, exec i s = .next t ∧ (x ≠ vf → (t.reg x).toNat = value) ∧ (t.reg vf).toNat = flag ∧
      (∀ r, r ≠ x → r ≠ vf → t.reg r = s.reg r) ∧ t = { s with v := t.v } ∧ SameMemory s t := by
  refine ⟨_, h, fun hx => ?_, ?_, fun r => s.setResultFlag_other x p, rfl, fun _ => rfl⟩
  · rw [s.setResultFlag_result p hx, hvalue]
  · rw [State.setResultFlag_vf, flagByte_toNat, hflag]

/-! The results and flags in numbers -/

section
variable (a b : Byte)

theorem addFlag_toNat : (addFlag a b).1.toNat = (a.toNat + b.toNat) % 256 ∧
    (addFlag a b).2.toNat = if a.toNat + b.toNat > 255 then 1 else 0 := by
  simp [addFlag, Bool.toNat, Bool.cond_decide]

theorem subFlag_toNat : (subFlag a b).1.toNat = (if a.toNat ≥ b.toNat then a.toNat - b.toNat else a.toNat + 256 - b.toNat) ∧
    (subFlag a b).2.toNat = if a.toNat > b.toNat then 1 else 0 := by
  have := a.isLt
  have := b.isLt
  constructor
  · simp only [subFlag, BitVec.toNat_ofNat]
    split <;> omega
  · simp [subFlag, Bool.toNat, Bool.cond_decide]

theorem shrFlag_toNat : (shrFlag a).1.toNat = a.toNat / 2 ∧ (shrFlag a).2.toNat = a.toNat % 2 := by
  have := a.isLt
  constructor
  · simp only [shrFlag, BitVec.toNat_ofNat]
    omega
  · simp only [shrFlag, BitVec.getLsbD, Nat.toNat_testBit]
    omega

theorem shlFlag_toNat : (shlFlag a).1.toNat = a.toNat * 2 % 256 ∧ (shlFlag a).2.toNat = a.toNat / 128 := by
  have := a.isLt
  constructor
  · simp only [shlFlag, BitVec.toNat_ofNat]
  · simp only [shlFlag, BitVec.getLsbD, Nat.toNat_testBit]
    omega

end

/-- The operand of a shift, mode by mode (R129, R131). -/
theorem State.shiftOperand_toNat {s : State} {x y : Reg} {a : Nat} (hlegacy : s.quirkMode = .legacy → a = (s.reg y).toNat)
    (hmodern : s.quirkMode = .modern → a = (s.reg x).toNat) : (s.shiftOperand x y).toNat = a := by
  unfold State.shiftOperand
  split
  · exact (hlegacy ‹_›).symm
  · exact (hmodern ‹_›).symm

end Machine

open Machine

/-- Settles O35: each of the four writes its value to one register. -/
theorem registerLoadsWriteOnlyTheirDestination : Obligations.RegisterLoadsWriteOnlyTheirDestination := by
  intro x y nn s i value hi
  simp only [List.mem_cons, List.not_mem_nil, or_false, Prod.mk.injEq] at hi
  obtain ⟨rfl, rfl⟩ | ⟨rfl, rfl⟩ | ⟨rfl, rfl⟩ | ⟨rfl, rfl⟩ := hi
  · exact exec_setReg_toNat rfl rfl
  · exact exec_setReg_toNat rfl rfl
  · exact exec_setReg_toNat rfl (addFlag_toNat (s.reg x) nn).1
  · exact exec_setReg_toNat rfl rfl

/-- Settles O36: the masked byte of the step's sample, and a schedule for every byte. -/
theorem randomIsTheDrawUnderTheMask : Obligations.RandomIsTheDrawUnderTheMask := by
  intro x nn s
  constructor
  · obtain ⟨t, ht, hx, hrest⟩ := exec_setReg (rfl : exec (.rnd x nn) s = .next (s.setReg x (s.input.rnd &&& nn)))
    exact ⟨t, ht, hx, fun b hb => by rw [hx, BitVec.getLsbD_and, hb, Bool.and_false], hrest⟩
  · intro draw
    obtain ⟨t, ht, hx, -⟩ := exec_setReg
      (rfl : exec (.rnd x nn) { s with inputs := [⟨true, 0, 0, draw⟩] } = .next (State.setReg _ x (draw &&& nn)))
    refine ⟨_, t, ht, hx, fun hall => ?_, fun hnone => ?_⟩
    · rw [hx, hall]
      exact BitVec.and_allOnes
    · rw [hx, hnone]
      exact BitVec.and_zero

/-- Settles O38, with the sum and the carry in numbers. -/
theorem addSetsTheCarry : Obligations.AddSetsTheCarry := fun x y s =>
  have ⟨hvalue, hflag⟩ := addFlag_toNat (s.reg x) (s.reg y)
  exec_setResultFlag (i := .addReg x y) rfl hvalue hflag

/-- Settles O39: `SUBN` is `SUB` with its operands exchanged. -/
theorem subtractionsSetTheStrictNoBorrowFlag : Obligations.SubtractionsSetTheStrictNoBorrowFlag := by
  intro x y s i a b hi
  simp only [List.mem_cons, List.not_mem_nil, or_false, Prod.mk.injEq] at hi
  obtain ⟨rfl, rfl, rfl⟩ | ⟨rfl, rfl, rfl⟩ := hi
  · obtain ⟨hvalue, hflag⟩ := subFlag_toNat (s.reg x) (s.reg y)
    exact exec_setResultFlag rfl hvalue hflag
  · obtain ⟨hvalue, hflag⟩ := subFlag_toNat (s.reg y) (s.reg x)
    exact exec_setResultFlag rfl hvalue hflag

/-- Settles O40, with the mode's operand in numbers. -/
theorem shiftsMoveOneBitIntoTheFlag : Obligations.ShiftsMoveOneBitIntoTheFlag := by
  intro x y s a hlegacy hmodern
  have ha : (s.shiftOperand x y).toNat = a := State.shiftOperand_toNat hlegacy hmodern
  obtain ⟨hshr, hshrFlag⟩ := ha ▸ shrFlag_toNat (s.shiftOperand x y)
  obtain ⟨hshl, hshlFlag⟩ := ha ▸ shlFlag_toNat (s.shiftOperand x y)
  exact ⟨exec_setResultFlag rfl hshr hshrFlag, exec_setResultFlag rfl hshl hshlFlag⟩

namespace Machine

/-- A logic operation: the result, then VF cleared in legacy mode only, and everything else as it was (R124, R132). -/
theorem exec_setLogicResult {i : Instr} {s : State} {x : Reg} {b : Byte} (h : exec i s = .next (s.setLogicResult x b)) :
    ∃ t, exec i s = .next t ∧ (x ≠ vf ∨ s.quirkMode = .modern → t.reg x = b) ∧
      (s.quirkMode = .legacy → t.reg vf = 0) ∧ (s.quirkMode = .modern → x ≠ vf → t.reg vf = s.reg vf) ∧
      (∀ r, r ≠ x → r ≠ vf → t.reg r = s.reg r) ∧ t = { s with v := t.v } ∧ SameMemory s t := by
  refine ⟨_, h, fun hx => ?_, fun hlegacy => ?_, fun hmodern hx => ?_, fun r hx hvf => ?_, s.setLogicResult_frame x b,
    fun a => ?_⟩
  · have hkept : ¬ (x = vf ∧ s.quirkMode = .legacy) := by
      rintro ⟨hvf, hlegacy⟩
      simp [hvf, hlegacy] at hx
    rw [State.setLogicResult_reg, if_neg hkept, if_pos rfl]
  · rw [State.setLogicResult_reg, if_pos ⟨rfl, hlegacy⟩]
  · rw [State.setLogicResult_reg, if_neg (by simp [hmodern]), if_neg (Ne.symm hx)]
  · rw [State.setLogicResult_reg, if_neg (by simp [hvf]), if_neg hx]
  · rw [State.setLogicResult_frame]

end Machine

/-- Settles O37: the three differ in the bitwise operation alone. -/
theorem logicOperationsClearTheFlagInLegacyMode : Obligations.LogicOperationsClearTheFlagInLegacyMode := by
  intro x y s i value hi
  simp only [List.mem_cons, List.not_mem_nil, or_false, Prod.mk.injEq] at hi
  obtain ⟨rfl, rfl⟩ | ⟨rfl, rfl⟩ | ⟨rfl, rfl⟩ := hi
  · obtain ⟨t, ht, hrest⟩ := exec_setLogicResult (rfl : exec (.orReg x y) s = _)
    exact ⟨t, ht, fun b => BitVec.getLsbD_or, hrest⟩
  · obtain ⟨t, ht, hrest⟩ := exec_setLogicResult (rfl : exec (.andReg x y) s = _)
    exact ⟨t, ht, fun b => BitVec.getLsbD_and, hrest⟩
  · obtain ⟨t, ht, hrest⟩ := exec_setLogicResult (rfl : exec (.xorReg x y) s = _)
    exact ⟨t, ht, fun b => BitVec.getLsbD_xor, hrest⟩

end Sys2Proof
end

section
/-! PROOFS. Control transfer (41_flow.md) and the key wait (44_keys.md, 40_engine_cycle.md section 3). -/

namespace Sys2Proof

namespace Machine

/-! Control transfer -/

section
variable (s : State)

/-- A skip on equal bytes, in numbers (R105, R107). -/
theorem State.skipIf_beq (a b : Byte) :
    s.skipIf (a == b) = { s with pc := if a.toNat = b.toNat then s.pc + 2 else s.pc } := by
  by_cases h : a = b <;> simp [State.skipIf, State.setPc, h, BitVec.toNat_eq.symm]

/-- A skip on different bytes, in numbers (R106, R108). -/
theorem State.skipIf_bne (a b : Byte) :
    s.skipIf (a != b) = { s with pc := if a.toNat = b.toNat then s.pc else s.pc + 2 } := by
  by_cases h : a = b <;> simp [State.skipIf, State.setPc, h, BitVec.toNat_eq.symm]

/-- The offset jump's target has room for the whole sum (R104). -/
theorem offsetTarget_toNat (nnn : Addr) (b : Byte) : (addrOperand nnn + byteToWord b).toNat = nnn.toNat + b.toNat := by
  have := nnn.isLt
  have := b.isLt
  rw [BitVec.toNat_add, addrOperand_toNat, byteToWord_toNat]
  omega

end

end Machine

open Machine

/-- Settles O27: the target is not checked by the jump, and the next step checks it. -/
theorem jumpSetsTheProgramCounter : Obligations.JumpSetsTheProgramCounter := by
  intro nnn s
  refine ⟨decodeWord_encode (i := .jp nnn) rfl, _, rfl, addrOperand_toNat nnn, rfl, fun _ => rfl, fun hself => ?_,
    fun hbad u hpc hrun hreq => ?_⟩
  · apply BitVec.eq_of_toNat_eq
    rw [State.setPc_pc, addrOperand_toNat]
    bv_omega
  · have hillegal : ¬ LegalFetch u.pc := by
      rw [hpc, State.setPc_pc]
      simp only [LegalFetch, addrOperand_toNat]
      omega
    exact ⟨_, step_of_not_legalFetch hrun hreq hillegal, rfl, rfl, hpc⟩

/-- Settles O28, by the two outcomes of the push. -/
theorem callPushesTheReturnAddressOrOverflows : Obligations.CallPushesTheReturnAddressOrOverflows := by
  intro nnn s
  refine ⟨fun h => ⟨_, exec_call_next nnn s h, addrOperand_toNat nnn, rfl, ?_, fun j hj => ?_, rfl, fun _ => rfl⟩,
    fun h => ⟨_, exec_call_overflow nnn s h, rfl⟩⟩
  · exact exec_call_newest h (exec_call_next nnn s h)
  · simp [Vector.get_eq_getElem, Vector.getElem_set_ne, hj.symm]

/-- Settles O29: the newest entry is the one `CALL` pushed. -/
theorem returnComesBackBehindTheCall : Obligations.ReturnComesBackBehindTheCall := by
  intro nnn x s t u hroom ht hstack hsp
  have hnewest := exec_call_newest hroom ht
  rw [exec_call_next nnn s hroom] at ht
  cases ht
  have hdepth : u.sp.val = s.sp.val + 1 := by rw [hsp]
  have htop : u.sp.val - 1 = s.sp.val := by omega
  refine ⟨_, exec_ret_next x u (by omega), ?_, Fin.ext htop, fun j hj => ?_⟩
  · simpa only [hstack, htop] using hnewest
  · simp [hstack, Vector.get_eq_getElem, Vector.getElem_set_ne, Nat.ne_of_gt hj]

/-- Settles O30, with the sum in numbers. -/
theorem offsetJumpAddsTheModesRegister : Obligations.OffsetJumpAddsTheModesRegister := by
  intro nnn x s
  refine ⟨_, rfl, fun hmode => ?_, fun hmode => ?_, rfl, fun _ => rfl⟩ <;>
    rw [State.setPc_pc, offsetTarget_toNat, State.jumpOffset, hmode]

/-- Settles O31: the skips compare bytes, which are equal when their numbers are. -/
theorem compareSkipsMoveTwoBytesFurther : Obligations.CompareSkipsMoveTwoBytesFurther := fun x y nn _ s =>
  ⟨congrArg _ (s.skipIf_beq (s.reg x) nn), congrArg _ (s.skipIf_bne (s.reg x) nn),
    congrArg _ (s.skipIf_beq (s.reg x) (s.reg y)), congrArg _ (s.skipIf_bne (s.reg x) (s.reg y))⟩

/-- Settles O33: the search for the lowest pressed key finds none, or `k`. -/
theorem keyWaitLatchesTheLowestPressedKey : Obligations.KeyWaitLatchesTheLowestPressedKey := fun x s =>
  ⟨fun hnone => exec_ldVxK_none x s (s.lowestPressed_none.2 hnone),
    fun k hk hlower => exec_ldVxK_some x s k ((s.lowestPressed_some k).2 ⟨hk, hlower⟩)⟩

/-! The key wait -/

namespace Machine

/-- A run in two parts. -/
theorem run_add {m : Nat} (n : Nat) : ∀ {s t : State}, Host.Core.run core m s = .next t →
    Host.Core.run core (m + n) s = Host.Core.run core n t := by
  induction m with
  | zero =>
    intro s t h
    cases (run_zero s).symm.trans h
    rw [Nat.zero_add]
  | succ m ih =>
    intro s t h
    obtain ⟨u, hu⟩ := everyStepAnswersNext s
    rw [run_succ m hu] at h
    rw [Nat.succ_add, run_succ _ hu, ih h]

/-- A run's last step. -/
theorem run_succ_last {n : Nat} {s t : State} (h : Host.Core.run core n s = .next t) :
    Host.Core.run core (n + 1) s = step t := by
  obtain ⟨u, hu⟩ := everyStepAnswersNext t
  exact (run_add 1 h).trans ((run_succ 0 hu).trans hu.symm)

/-- `n` input samples are gone (log 1). -/
def State.consumeInputs (s : State) (n : Nat) : State :=
  { s with inputs := s.inputs.drop n, inputSeq := s.inputSeq + n }

section
variable {s : State}

/-- The oldest scheduled sample is the step's (log 1). -/
theorem State.input_of_inputs {i : InputSample} {l : List InputSample} (h : s.inputs = i :: l) : s.input = i := by
  rw [State.input, h]

/-- The sample behind `n` others is the step's after they are gone. -/
theorem State.consumeInputs_input {n : Nat} (h : n < s.inputs.length) : (s.consumeInputs n).input = s.inputs[n] :=
  State.input_of_inputs (List.drop_eq_getElem_cons h)

theorem State.consumeInputs_succ (n : Nat) : (s.consumeInputs n).consumeInput = s.consumeInputs (n + 1) := by
  simp [State.consumeInputs, State.consumeInput, Nat.add_assoc]

/-- A requested poll of a held key only takes the input sample (R96). -/
theorem step_of_held (hw : s.status = .waitRelease) (hreq : s.Requested) (hkey : s.keyReleased s.kwKey = false) :
    step s = .next s.consumeInput := by
  rw [step_of_waitRelease hw hreq, State.pollRelease, hkey]
  rfl

/-- A requested poll of a released key writes the register and counts (R96). -/
theorem step_of_release (hw : s.status = .waitRelease) (hreq : s.Requested) (hkey : s.keyReleased s.kwKey = true) :
    step s = .next s.released.timerHook.consumeInput := by
  rw [step_of_waitRelease hw hreq, s.pollRelease_of_released hkey]

/-- While the latched key is held, a run only takes input samples (R96). -/
theorem run_of_held (hw : s.status = .waitRelease) (n : Nat) (hlen : n ≤ s.inputs.length)
    (hheld : ∀ i ∈ s.inputs.take n, i.stepEn = true ∧ i.keyReleased.getLsbD s.kwKey.val = false) :
    Host.Core.run core n s = .next (s.consumeInputs n) := by
  induction n with
  | zero => exact run_zero s
  | succ n ih =>
    have hbefore := ih (by omega) fun i hi => hheld i (List.take_subset_take_left _ (Nat.le_succ n) hi)
    have hsample : s.inputs[n] ∈ s.inputs.take (n + 1) := List.mem_take_iff_getElem.2 ⟨n, by omega, rfl⟩
    rw [← s.consumeInputs_input hlen] at hsample
    obtain ⟨hreq, hkey⟩ := hheld _ hsample
    rw [← State.consumeInputs_succ]
    exact (run_succ_last hbefore).trans (step_of_held hw hreq hkey)

/-- At the last phase the hook ticks both timers (R196, R197). -/
theorem State.timerHook_of_le (h : s.tickDiv ≤ s.tickcnt + 1) :
    s.timerHook = { s with tickcnt := 0, dt := timerDown s.dt, st := timerDown s.st } := by
  rw [State.timerHook, if_pos h]
  rfl

/-- At any other phase the hook counts (R196). -/
theorem State.timerHook_of_lt (h : s.tickcnt + 1 < s.tickDiv) : s.timerHook = { s with tickcnt := s.tickcnt + 1 } := by
  rw [State.timerHook, if_neg (Nat.not_le.2 h)]

/-- The hook sees the timer unit alone. -/
theorem State.timerHook_with (s : State) (v : Vector Byte 16) (status : Status) (inputs : List InputSample) (inputSeq : Nat) :
    State.timerHook { s with v := v, status := status, inputs := inputs, inputSeq := inputSeq } =
      { s.timerHook with v := v, status := status, inputs := inputs, inputSeq := inputSeq } := by
  obtain hdiv | hdiv := Nat.lt_or_ge (s.tickcnt + 1) s.tickDiv
  · rw [State.timerHook_of_lt hdiv]
    apply State.timerHook_of_lt
    exact hdiv
  · rw [State.timerHook_of_le hdiv]
    apply State.timerHook_of_le
    exact hdiv

end

end Machine

/-- Settles O34: the samples before the release change nothing, the next one releases the key. -/
theorem keyWaitFreezesUntilTheReleaseAndCountsOnce : Obligations.KeyWaitFreezesUntilTheReleaseAndCountsOnce := by
  intro n s hw hlen hheld hreleased
  have hfrozen : ∀ k, k ≤ n → Host.Core.run core k s = .next (s.consumeInputs k) := fun k hk =>
    run_of_held hw k (by omega) fun i hi => hheld i (List.take_subset_take_left _ hk hi)
  have hlast : Host.Core.run core (n + 1) s = .next (s.consumeInputs n).released.timerHook.consumeInput := by
    have hsample := hreleased s.inputs[n] (List.getElem?_eq_getElem hlen)
    rw [← s.consumeInputs_input hlen] at hsample
    obtain ⟨hreq, hkey⟩ := hsample
    exact (run_succ_last (hfrozen n le_rfl)).trans (step_of_release hw hreq hkey)
  have hhook := s.timerHook_with (s.consumeInputs n).released.v .run (s.inputs.drop n) (s.inputSeq + n)
  change (s.consumeInputs n).released.timerHook = _ at hhook
  refine ⟨fun k hk => ⟨_, hfrozen k hk, rfl⟩, ⟨_, hlast, ?_, ?_, fun r hr => ?_⟩, fun hlegal k hk => ?_⟩
  · rw [hhook]
    rfl
  · rw [hhook]
    exact (s.consumeInputs n).released_reg_kwX
  · rw [hhook]
    exact (s.consumeInputs n).released_reg_other hr
  · have hkeeps := run_keeps (fun _ _ h ht => State.Legal.step h ht) k s
    obtain hk | rfl := Nat.lt_or_eq_of_le hk
    · exact ⟨_, hfrozen k (by omega), hkeeps _ hlegal (hfrozen k (by omega)), ne_of_eq_of_ne hw nofun⟩
    · exact ⟨_, hlast, hkeeps _ hlegal hlast, ne_of_eq_of_ne (State.timerHook_status _) nofun⟩

end Sys2Proof
end

section
/-! PROOFS. The display (43_draw.md): `CLS`, and `DRW` pixel by pixel. -/

namespace Sys2Proof

namespace Machine

/-- A line is not zero when some column of it is set. -/
theorem ne_zero_iff_getLsbD (b : BitVec 64) : b ≠ 0 ↔ ∃ c : Fin 64, b.getLsbD c.val = true := by
  constructor
  · intro hne
    by_contra hclear
    simp only [not_exists, Bool.not_eq_true] at hclear
    exact hne (BitVec.eq_of_getLsbD_eq fun c hc => (hclear ⟨c, hc⟩).trans BitVec.getLsbD_zero.symm)
  · rintro ⟨c, hc⟩ rfl
    simp at hc

/-! The sprite of a `DRW` -/

/-- What `DRW Vx, Vy, n` leaves on the display, and whether a set pixel was met (R142). -/
def State.drawn (s : State) (x y : Reg) (n : Nibble) : Display × Bool :=
  drawRows (drawColumn (s.reg x)) (drawRow (s.reg y)) (s.mem.readBytes s.index.toNat n.toNat) s.display

/-- The sprite's line on a row of the display (R142, R144). -/
def State.spriteRow (s : State) (x y : Reg) (n : Nibble) (r : Fin 32) : BitVec 64 :=
  if drawRow (s.reg y) ≤ r.val ∧ r.val - drawRow (s.reg y) < n.toNat then
    spriteLine (s.mem.read (s.index.toNat + (r.val - drawRow (s.reg y)))) (drawColumn (s.reg x))
  else 0

section
variable (s : State) (x y : Reg) (n : Nibble)

/-- The bits of the sprite's lines are the sprite's bits. -/
theorem State.spriteRow_getLsbD (r : Fin 32) (c : Fin 64) :
    (s.spriteRow x y n r).getLsbD c.val = spriteBit s x y n r c := by
  by_cases hrow : drawRow (s.reg y) ≤ r.val ∧ r.val - drawRow (s.reg y) < n.toNat
  · rw [State.spriteRow, if_pos hrow, spriteLine_getLsbD _ _ _ c.isLt, spriteBit]
    simp only [drawRow, drawColumn] at hrow ⊢
    congr 1
    exact decide_eq_decide.2 (by omega)
  · rw [State.spriteRow, if_neg hrow, spriteBit]
    simp only [drawRow] at hrow
    have hout : ¬ ((s.reg y).toNat % 32 ≤ r.val ∧ r.val < (s.reg y).toNat % 32 + n.toNat ∧
        (s.reg x).toNat % 64 ≤ c.val ∧ c.val < (s.reg x).toNat % 64 + 8) := by omega
    simp only [hout, decide_false, Bool.false_and]
    exact BitVec.getLsbD_zero

/-- Every row is XORed with the sprite's line on it. -/
theorem State.drawn_row (r : Fin 32) : (s.drawn x y n).1.get r = s.display.get r ^^^ s.spriteRow x y n r := by
  rw [State.drawn, drawRows_row, State.spriteRow]
  simp only [Memory.readBytes_length, Memory.readBytes_getElem]
  split <;> rfl

/-- Every pixel is XORed with the sprite's bit on it. -/
theorem State.drawn_pixel (r : Fin 32) (c : Fin 64) :
    (s.drawn x y n).1.pixel r c.val = (s.dispPixel r c ^^ spriteBit s x y n r c) := by
  rw [Display.pixel, State.drawn_row, BitVec.getLsbD_xor, State.spriteRow_getLsbD]
  rfl

/-- The collision is a set pixel under a sprite's bit. -/
theorem State.drawn_hit :
    (s.drawn x y n).2 = true ↔ ∃ r c, s.dispPixel r c = true ∧ spriteBit s x y n r c = true := by
  have hrows : (s.drawn x y n).2 = true ↔ ∃ r, s.display.get r &&& s.spriteRow x y n r ≠ 0 := by
    rw [State.drawn, drawRows_hit]
    simp only [Memory.readBytes_length, Memory.readBytes_getElem, State.spriteRow]
    refine exists_congr fun r => ⟨fun ⟨hr, hne⟩ => ?_, fun hne => ?_⟩
    · rwa [if_pos hr]
    · by_cases hr : drawRow (s.reg y) ≤ r.val ∧ r.val - drawRow (s.reg y) < n.toNat
      · exact ⟨hr, by rwa [if_pos hr] at hne⟩
      · rw [if_neg hr] at hne
        exact absurd BitVec.and_zero hne
  rw [hrows]
  refine exists_congr fun r => ?_
  rw [ne_zero_iff_getLsbD]
  simp only [BitVec.getLsbD_and, Bool.and_eq_true, State.spriteRow_getLsbD]
  rfl

end

end Machine

open Machine

/-- Settles O41: no pixel of the clear display is set. -/
theorem clearScreenClearsEveryPixel : Obligations.ClearScreenClearsEveryPixel := fun _ _ =>
  ⟨_, rfl, fun r c => Display.clear_pixel r c.val, rfl, fun _ => rfl⟩

/-- Settles O42: the range check, and on each side its equation of `DRW`. -/
theorem drawXorsTheSpriteIntoTheDisplay : Obligations.DrawXorsTheSpriteIntoTheDisplay := by
  intro x y n s
  refine ⟨fun hin => ?_, fun hn hout => ?_⟩
  · have hmem : inMemory s.index.toNat n.toNat = true := (inMemory_iff _ _).2 (by omega)
    have hvf : ((s.setDisplay (s.drawn x y n).1).setReg vf (flagByte (s.drawn x y n).2)).reg vf =
        flagByte (s.drawn x y n).2 := State.setReg_reg_same _ vf _
    refine ⟨_, exec_drw_next x y n s hmem, s.drawn_pixel x y n, fun hhit => hvf.trans ?_, fun hclear => hvf.trans ?_,
      fun r hr => State.setReg_reg_other _ vf r _ hr, rfl, fun _ => rfl⟩
    · rw [(s.drawn_hit x y n).2 hhit]
      rfl
    · have hmiss : (s.drawn x y n).2 = false := by
        rw [Bool.eq_false_iff, Ne, s.drawn_hit x y n]
        rintro ⟨r, c, hset, hbit⟩
        exact absurd ((hclear r c hset).symm.trans hbit) nofun
      rw [hmiss]
      rfl
  · have hmem : inMemory s.index.toNat n.toNat = false :=
      Bool.eq_false_iff.2 (mt (inMemory_iff _ _).1 (by omega))
    exact ⟨_, exec_drw_fault x y n s hmem, rfl⟩

namespace Machine

/-- A sprite depends on its coordinates, on `I` and on memory. -/
theorem spriteBit_congr {s t : State} {x y : Reg} (n : Nibble) (hx : t.reg x = s.reg x) (hy : t.reg y = s.reg y)
    (hindex : t.index = s.index) (hmem : SameMemory s t) (r : Fin 32) (c : Fin 64) :
    spriteBit t x y n r c = spriteBit s x y n r c := by
  unfold spriteBit
  rw [hx, hy, hindex]
  simp only [hmem _]

end Machine

/-- Settles O43: the second draw XORs with the same sprite, and a sprite's bit drawn on a clear pixel is there for the second
draw to meet. -/
theorem drawingTwiceRestoresTheDisplay : Obligations.DrawingTwiceRestoresTheDisplay := by
  intro x y n s t u hx hy hin ht hu
  obtain ⟨t', ht', hpixel, -, hmiss, hregs, hframe, hmem⟩ := (drawXorsTheSpriteIntoTheDisplay x y n s).1 hin
  cases ht'.symm.trans ht
  have hindex : t.index = s.index := by rw [hframe]
  have hbit := spriteBit_congr n (hregs x hx) (hregs y hy) hindex hmem
  obtain ⟨u', hu', hpixel', hhit', -⟩ := (drawXorsTheSpriteIntoTheDisplay x y n t).1 (hindex ▸ hin)
  cases hu'.symm.trans hu
  refine ⟨Display.ext_pixels fun r c hc => ?_, fun hclear hvisible => ⟨hmiss fun r c hset => ?_, hhit' ?_⟩⟩
  · change u.dispPixel r ⟨c, hc⟩ = s.dispPixel r ⟨c, hc⟩
    rw [hpixel', hpixel, hbit, Bool.xor_assoc, Bool.xor_self, Bool.xor_false]
  · by_contra hdrawn
    exact absurd (hset.symm.trans (hclear r c (Bool.not_eq_false _ ▸ hdrawn))) nofun
  · obtain ⟨r, c, hdrawn⟩ := hvisible
    exact ⟨r, c, by rw [hpixel, hclear r c hdrawn, hdrawn]; rfl, by rw [hbit, hdrawn]⟩

end Sys2Proof
end

section
/-! PROOFS. Index, timers and memory (45_timer_index_memory.md, 20_memory.md, R196 and R197 of 60_exceptions.md). -/

namespace Sys2Proof

namespace Machine

/-! The stored and loaded bytes -/

/-- Byte `j` of a store lands at `a + j` (R52). -/
theorem Memory.read_writeBytes_at (m : Memory) (a : Nat) {bytes : List Byte} {j : Nat} (h : j < bytes.length) :
    (m.writeBytes a bytes).read (a + j) = bytes[j] := by
  have hrange : a ≤ a + j ∧ a + j - a < bytes.length := by omega
  rw [Memory.read_writeBytes, dif_pos hrange]
  simp only [Nat.add_sub_cancel_left]

/-- Two bytes of a store, as a word (R57). -/
theorem Memory.word_writeBytes_at (m : Memory) (a : Nat) {bytes : List Byte} {j : Nat} (h : j + 1 < bytes.length) :
    wordOfBytes ((m.writeBytes a bytes).read (a + j)) ((m.writeBytes a bytes).read (a + j + 1)) =
      wordOfBytes (bytes.getD j 0) (bytes.getD (j + 1) 0) := by
  rw [m.read_writeBytes_at a (by omega), Nat.add_assoc, m.read_writeBytes_at a h]
  simp [List.getD_eq_getElem?_getD, h, Nat.lt_of_succ_lt h]

section
variable (s : State) (x : Reg)

/-- Storing a run of registers puts `V[j]` at `I + j` (R168). -/
theorem State.read_regsUpTo {j : Reg} (hj : j ≤ x) (a : Nat) :
    (s.mem.writeBytes a (s.regsUpTo x)).read (a + j.val) = s.reg j := by
  have hlen : j.val < (s.regsUpTo x).length := by
    have := Fin.le_def.1 hj
    simp only [State.regsUpTo_length]
    omega
  rw [Memory.read_writeBytes_at _ _ hlen, State.regsUpTo_getElem]

/-- Loading a run of registers puts the byte at `I + j` in `V[j]` (R169). -/
theorem State.setRegsFrom_readBytes_reg (a : Nat) (r : Reg) :
    (s.setRegsFrom 0 (s.mem.readBytes a (x.val + 1))).reg r = if r ≤ x then s.mem.read (a + r.val) else s.reg r := by
  rw [State.setRegsFrom_reg]
  simp only [Memory.readBytes_length, Memory.readBytes_getElem, Nat.sub_zero, Nat.zero_le, true_and, Nat.lt_succ_iff]
  rfl

/-- The index behind a bulk transfer, mode by mode (R168, R169). -/
theorem State.indexAfterBulk_legacy (h : s.quirkMode = .legacy) :
    (s.indexAfterBulk x).toNat = (s.index.toNat + x.val + 1) % 65536 := by
  have := x.isLt
  rw [State.indexAfterBulk, h]
  simp only [BitVec.toNat_add, BitVec.toNat_ofNat]
  omega

theorem State.indexAfterBulk_modern (h : s.quirkMode = .modern) : s.indexAfterBulk x = s.index := by
  rw [State.indexAfterBulk, h]

end

/-- The range check of a transfer of `n + 1` bytes, in numbers (R51). -/
theorem inMemory_succ {a n : Nat} (h : a + n ≤ 0xFFF) : inMemory a (n + 1) = true :=
  (inMemory_iff a (n + 1)).2 (by omega)

theorem not_inMemory_succ {a n : Nat} (h : 0xFFF < a + n) : inMemory a (n + 1) = false :=
  Bool.eq_false_iff.2 (mt (inMemory_iff a (n + 1)).1 (by omega))

/-- The digits of a value (R167). -/
theorem decimalDigits_toNat (b : Byte) :
    (decimalDigits b)[0].toNat = b.toNat / 100 ∧ (decimalDigits b)[1].toNat = b.toNat / 10 % 10 ∧
    (decimalDigits b)[2].toNat = b.toNat % 10 := by
  have := b.isLt
  simp only [decimalDigits, List.getElem_cons_zero, List.getElem_cons_succ, BitVec.toNat_ofNat]
  omega

/-- `I + V[x]` and its flag in numbers (R165). -/
theorem indexFlag_toNat (i : Word) (b : Byte) : (indexFlag i b).1.toNat = (i.toNat + b.toNat) % 65536 ∧
    (indexFlag i b).2.toNat = if i.toNat + b.toNat > 0x0FFF then 1 else 0 := by
  simp [indexFlag, Bool.toNat, Bool.cond_decide]

end Machine

open Machine

/-- Settles O44: both set `I`, to the address field or to the glyph's address. -/
theorem indexLoadsSetTheIndex : Obligations.IndexLoadsSetTheIndex := by
  intro nnn x s i value hi
  simp only [List.mem_cons, List.not_mem_nil, or_false, Prod.mk.injEq] at hi
  obtain ⟨rfl, rfl⟩ | ⟨rfl, rfl⟩ := hi
  · exact ⟨_, rfl, addrOperand_toNat nnn, rfl, fun _ => rfl⟩
  · exact ⟨_, rfl, glyphAddress_toNat (s.reg x), rfl, fun _ => rfl⟩

/-- Settles O45, with the sum and its flag in numbers. -/
theorem addIndexSetsTheTwelveBitOverflow : Obligations.AddIndexSetsTheTwelveBitOverflow := by
  intro x s
  obtain ⟨hvalue, hflag⟩ := indexFlag_toNat s.index (s.reg x)
  refine ⟨_, rfl, hvalue, ?_, fun r hr => State.setReg_reg_other _ vf r _ hr, rfl, fun _ => rfl⟩
  rw [State.setReg_reg_same, flagByte_toNat, hflag]

/-- Settles O46: each is one field's update. -/
theorem timerWritesSetOneTimer : Obligations.TimerWritesSetOneTimer := fun _ _ =>
  ⟨⟨_, rfl, rfl, rfl, fun _ => rfl⟩, ⟨_, rfl, rfl, rfl, fun _ => rfl⟩⟩

/-- Settles O47: three bytes in range are stored, and a range that ends past 0xFFF faults. -/
theorem decimalStoreWritesThreeDigits : Obligations.DecimalStoreWritesThreeDigits := by
  intro x s
  refine ⟨fun hin => ?_, fun hout => ⟨_, exec_ldB_fault x s (not_inMemory_succ (by omega)), rfl⟩⟩
  obtain ⟨hhundreds, htens, hones⟩ := decimalDigits_toNat (s.reg x)
  have hstore : ∀ j, (hj : j < 3) →
      (s.mem.writeBytes s.index.toNat (decimalDigits (s.reg x))).read (s.index.toNat + j) = (decimalDigits (s.reg x))[j] :=
    fun j hj => s.mem.read_writeBytes_at s.index.toNat hj
  refine ⟨_, exec_ldB_next x s (inMemory_succ (by omega)), ?_, ?_, ?_, ?_, rfl⟩
  · exact (congrArg _ (hstore 0 (by omega))).trans hhundreds
  · exact (congrArg _ (hstore 1 (by omega))).trans htens
  · exact (congrArg _ (hstore 2 (by omega))).trans hones
  · exact fun a ha => s.mem.read_writeBytes_outside s.index.toNat a _ ha

/-- Settles O48, by the two outcomes of the range check. -/
theorem bulkStoreWritesTheRegisters : Obligations.BulkStoreWritesTheRegisters := by
  intro x s
  refine ⟨decodeWord_encode (i := .storeRegs x) rfl, fun hin => ?_, fun hout => ?_⟩
  · refine ⟨_, exec_storeRegs_next x s (inMemory_succ hin), fun j hj => s.read_regsUpTo x hj _, fun a ha => ?_,
      s.indexAfterBulk_legacy x, s.indexAfterBulk_modern x, rfl⟩
    exact s.mem.read_writeBytes_outside s.index.toNat a _ (by rwa [State.regsUpTo_length])
  · exact ⟨_, exec_storeRegs_fault x s (not_inMemory_succ hout), rfl, rfl, rfl, rfl, fun _ => rfl⟩

/-- Settles O49, by the two outcomes of the range check. -/
theorem bulkLoadReadsTheRegisters : Obligations.BulkLoadReadsTheRegisters := by
  intro x s
  refine ⟨fun hin => ?_, fun hout => ⟨_, exec_loadRegs_fault x s (not_inMemory_succ hout), rfl⟩⟩
  refine ⟨_, exec_loadRegs_next x s (inMemory_succ hin), fun j hj => ?_, fun r hr => ?_, s.indexAfterBulk_legacy x,
    s.indexAfterBulk_modern x, ?_, fun a => ?_⟩
  · exact (s.setRegsFrom_readBytes_reg x _ j).trans (if_pos hj)
  · exact (s.setRegsFrom_readBytes_reg x _ r).trans (if_neg (not_le.2 hr))
  · rw [State.setRegsFrom_frame]
    rfl
  · rw [State.setRegsFrom_frame]
    rfl

/-- Settles O50: the load reads the bytes the store left, from the same address. -/
theorem bulkLoadUndoesBulkStore : Obligations.BulkLoadUndoesBulkStore := by
  intro x s t u w hin ht hu hw
  obtain ⟨t', ht', hstored, -, hlegacy, hmodern, hframe⟩ := (bulkStoreWritesTheRegisters x s).2.1 hin
  cases ht'.symm.trans ht
  have hindex : u.index = s.index := by rw [hu]
  have hmode : u.quirkMode = s.quirkMode := by rw [hu, hframe]
  have hmem : u.mem = t.mem := by rw [hu]
  obtain ⟨w', hw', hloaded, -, hlegacy', hmodern', -⟩ := (bulkLoadReadsTheRegisters x u).1 (hindex ▸ hin)
  cases hw'.symm.trans hw
  rw [hmode, hindex] at hlegacy' hmodern'
  refine ⟨fun j hj => ?_, ?_⟩
  · rw [hloaded j hj, hindex, hmem, hstored j hj]
  · cases hq : s.quirkMode with
    | legacy => exact BitVec.eq_of_toNat_eq ((hlegacy' hq).trans (hlegacy hq).symm)
    | modern => exact (hmodern' hq).trans (hmodern hq).symm

/-- Settles O53, by the two outcomes of the hook. -/
theorem timerHookTicksEveryTickDiv : Obligations.TimerHookTicksEveryTickDiv := by
  intro s
  refine ⟨rfl, Nat.le_add_left 60 s.rateOver60, State.timerHook_of_lt, fun h => ?_⟩
  rw [State.timerHook_of_le h]
  exact ⟨rfl, timerDown_toNat s.dt, timerDown_toNat s.st, rfl⟩

end Sys2Proof
end

section
/-! PROOFS. Rules over all instructions (00_scope.md section 8, 10_state.md, 20_memory.md section 1): what each may write,
what its result depends on, and its flag. -/

namespace Sys2Proof

namespace Machine

/-! What an instruction writes -/

/-- The frame of an instruction: every field no rule lets it write is as before (R20 to R28, R55). -/
structure Framed (i : Instr) (s t : State) : Prop where
  mem : (touches i).mem = false → t.mem = s.mem
  display : (touches i).display = false → t.display = s.display
  stack : (touches i).stack = false → t.stack = s.stack ∧ t.sp = s.sp
  dt : (∀ x, i ≠ .ldDtVx x) → t.dt = s.dt
  st : (∀ x, i ≠ .ldStVx x) → t.st = s.st
  index : (touches i).index = false → t.index = s.index
  pc : (touches i).pc = false → t.pc = s.pc
  regs : ∀ r, writesReg s.quirkMode r i = false → t.reg r = s.reg r

section
variable {i : Instr} {s : State}

/-- A raise writes the record and STATUS alone (R187). -/
theorem framed_raiseIn (j : Instr) (cause : FaultCause) (info : Word) : Framed i s (s.raiseIn j cause info) := by
  constructor <;> simp [State.raiseIn]

/-- Beginning the key wait writes no field of the frame (R153). -/
theorem framed_latchKey (k : Key) (x : Reg) : Framed i s (s.latchKey k x) := by
  constructor <;> simp

/-- An instruction may set `pc` if it is a control transfer, a skip or the key wait (R23). -/
theorem framed_setPc (h : (touches i).pc = true) (w : Word) : Framed i s (s.setPc w) := by
  constructor <;> simp [h]

/-- An instruction may set `I` if it is one of the five (R22). -/
theorem framed_setIndex (h : (touches i).index = true) (w : Word) : Framed i s (s.setIndex w) := by
  constructor <;> simp [h]

/-- An instruction may move the stack and `pc` if it is `CALL` or `RET` (R24). -/
theorem framed_stack (hstack : (touches i).stack = true) (hpc : (touches i).pc = true) (stack : Vector Word 16)
    (sp : Fin 17) (pc : Word) : Framed i s { s with stack := stack, sp := sp, pc := pc } := by
  constructor <;> simp [hstack, hpc, State.reg]

/-- An instruction may store if it is one of the two stores (R55). -/
theorem framed_mem (h : (touches i).mem = true) (m : Memory) : Framed i s { s with mem := m } := by
  constructor <;> simp [h, State.reg]

/-- An instruction may draw if it is `CLS` or `DRW` (R27). -/
theorem framed_setDisplay (h : (touches i).display = true) (d : Display) : Framed i s (s.setDisplay d) := by
  constructor <;> simp [h]

/-- An instruction may change registers it writes in the mode (R21, R132). -/
theorem framed_of_regs {t : State} (ht : t = { s with v := t.v })
    (h : ∀ r, writesReg s.quirkMode r i = false → t.reg r = s.reg r) : Framed i s t := by
  refine ⟨?_, ?_, ?_, ?_, ?_, ?_, ?_, h⟩ <;> rw [ht] <;> simp

/-- One register. -/
theorem framed_setReg {x : Reg} (h : writesReg s.quirkMode x i = true) (b : Byte) : Framed i s (s.setReg x b) := by
  refine framed_of_regs rfl fun r hr => State.setReg_reg_other s x r b ?_
  rintro rfl
  exact absurd (h.symm.trans hr) nofun

/-- A destination and the flag. -/
theorem framed_setResultFlag {x : Reg} (h : ∀ r, writesReg s.quirkMode r i = (r == x || r == vf)) (p : Byte × Bool) :
    Framed i s (s.setResultFlag x p) := by
  refine framed_of_regs rfl fun r hr => ?_
  rw [h, Bool.or_eq_false_iff, beq_eq_false_iff_ne, beq_eq_false_iff_ne] at hr
  exact s.setResultFlag_other x p hr.1 hr.2

/-- A destination, and the flag in legacy mode. -/
theorem framed_setLogicResult {x : Reg}
    (h : ∀ r, writesReg s.quirkMode r i = (r == x || (r == vf && s.quirkMode == .legacy))) (b : Byte) :
    Framed i s (s.setLogicResult x b) := by
  refine framed_of_regs (s.setLogicResult_frame x b) fun r hr => ?_
  rw [h] at hr
  simp only [Bool.or_eq_false_iff, beq_eq_false_iff_ne, Bool.and_eq_false_imp, beq_iff_eq] at hr
  obtain ⟨hx, hvf⟩ := hr
  rw [State.setLogicResult_reg, if_neg fun ⟨e, hlegacy⟩ => hvf e hlegacy, if_neg hx]

/-- Two updates within the frame are within the frame. -/
theorem Framed.trans {t u : State} (h : Framed i s t) (hmode : t.quirkMode = s.quirkMode) (h' : Framed i t u) :
    Framed i s u where
  mem hi := (h'.mem hi).trans (h.mem hi)
  display hi := (h'.display hi).trans (h.display hi)
  stack hi := ⟨(h'.stack hi).1.trans (h.stack hi).1, (h'.stack hi).2.trans (h.stack hi).2⟩
  dt hi := (h'.dt hi).trans (h.dt hi)
  st hi := (h'.st hi).trans (h.st hi)
  index hi := (h'.index hi).trans (h.index hi)
  pc hi := (h'.pc hi).trans (h.pc hi)
  regs r hr := (h'.regs r (hmode ▸ hr)).trans (h.regs r hr)

end

/-- Every instruction keeps its frame. -/
theorem exec_framed {i : Instr} {s t : State} (ht : exec i s = .next t) : Framed i s t := by
  cases i
  case jp | jpV0 | seImm | sneImm | seReg | sneReg =>
    cases ht
    exact framed_setPc rfl _
  case ldI | ldF =>
    cases ht
    exact framed_setIndex rfl _
  case ldImm | addImm | ldReg | rnd | ldVxDt =>
    cases ht
    exact framed_setReg (beq_self_eq_true _) _
  case addReg | subReg | shrReg | subnReg | shlReg =>
    cases ht
    exact framed_setResultFlag (fun _ => rfl) _
  case orReg | andReg | xorReg =>
    cases ht
    exact framed_setLogicResult (fun _ => rfl) _
  case cls =>
    cases ht
    exact framed_setDisplay rfl _
  case ldDtVx x =>
    cases ht
    exact ⟨fun _ => rfl, fun _ => rfl, fun _ => ⟨rfl, rfl⟩, fun h => absurd rfl (h x), fun _ => rfl, fun _ => rfl,
      fun _ => rfl, fun _ _ => rfl⟩
  case ldStVx x =>
    cases ht
    exact ⟨fun _ => rfl, fun _ => rfl, fun _ => ⟨rfl, rfl⟩, fun _ => rfl, fun h => absurd rfl (h x), fun _ => rfl,
      fun _ => rfl, fun _ _ => rfl⟩
  case addI x =>
    cases ht
    exact (framed_setIndex rfl (indexFlag s.index (s.reg x)).1).trans rfl (framed_setReg rfl _)
  case ret x =>
    obtain hsp | hsp := Nat.eq_zero_or_pos s.sp.val
    · cases (exec_ret_underflow x s hsp).symm.trans ht
      exact framed_raiseIn _ _ _
    · cases (exec_ret_next x s hsp).symm.trans ht
      exact framed_stack rfl rfl _ _ _
  case call nnn =>
    obtain hsp | hsp := Nat.lt_or_eq_of_le (Nat.le_of_lt_succ s.sp.isLt)
    · cases (exec_call_next nnn s hsp).symm.trans ht
      exact framed_stack rfl rfl _ _ _
    · cases (exec_call_overflow nnn s hsp).symm.trans ht
      exact framed_raiseIn _ _ _
  case skp x =>
    obtain hkey | hkey := Nat.lt_or_ge 15 (s.reg x).toNat
    · cases (exec_skp_fault x s hkey).symm.trans ht
      exact framed_raiseIn _ _ _
    · cases (exec_skp_next x s (Nat.lt_succ_of_le hkey)).symm.trans ht
      exact framed_setPc rfl _
  case sknp x =>
    obtain hkey | hkey := Nat.lt_or_ge 15 (s.reg x).toNat
    · cases (exec_sknp_fault x s hkey).symm.trans ht
      exact framed_raiseIn _ _ _
    · cases (exec_sknp_next x s (Nat.lt_succ_of_le hkey)).symm.trans ht
      exact framed_setPc rfl _
  case ldVxK x =>
    cases hkey : s.lowestPressed with
    | none =>
      cases (exec_ldVxK_none x s hkey).symm.trans ht
      exact framed_setPc rfl _
    | some k =>
      cases (exec_ldVxK_some x s k hkey).symm.trans ht
      exact framed_latchKey k x
  case drw x y n =>
    cases hin : inMemory s.index.toNat n.toNat with
    | false =>
      cases (exec_drw_fault x y n s hin).symm.trans ht
      exact framed_raiseIn _ _ _
    | true =>
      cases (exec_drw_next x y n s hin).symm.trans ht
      exact (framed_setDisplay rfl (s.drawn x y n).1).trans rfl (framed_setReg rfl _)
  case ldB x =>
    cases hin : inMemory s.index.toNat 3 with
    | false =>
      cases (exec_ldB_fault x s hin).symm.trans ht
      exact framed_raiseIn _ _ _
    | true =>
      cases (exec_ldB_next x s hin).symm.trans ht
      exact framed_mem rfl _
  case storeRegs x =>
    cases hin : inMemory s.index.toNat (x.val + 1) with
    | false =>
      cases (exec_storeRegs_fault x s hin).symm.trans ht
      exact framed_raiseIn _ _ _
    | true =>
      cases (exec_storeRegs_next x s hin).symm.trans ht
      exact (framed_mem rfl (s.mem.writeBytes s.index.toNat (s.regsUpTo x))).trans rfl (framed_setIndex rfl _)
  case loadRegs x =>
    cases hin : inMemory s.index.toNat (x.val + 1) with
    | false =>
      cases (exec_loadRegs_fault x s hin).symm.trans ht
      exact framed_raiseIn _ _ _
    | true =>
      cases (exec_loadRegs_next x s hin).symm.trans ht
      have hframe := s.setRegsFrom_frame 0 (s.mem.readBytes s.index.toNat (x.val + 1))
      refine (framed_of_regs hframe fun r hr => ?_).trans (by rw [hframe]) (framed_setIndex rfl _)
      rw [State.setRegsFrom_readBytes_reg, if_neg (of_decide_eq_false hr)]

end Machine

open Machine

/-- Settles O23: the frame of the fields, and what no outcome of a meaning writes. -/
theorem eachSpaceIsWrittenOnlyByItsInstructions : Obligations.EachSpaceIsWrittenOnlyByItsInstructions := by
  intro i s t ht
  have hframe := exec_framed ht
  have htimers (h : (touches i).timers = false) : t.dt = s.dt ∧ t.st = s.st :=
    ⟨hframe.dt (by rintro x rfl; cases h), hframe.st (by rintro x rfl; cases h)⟩
  refine ⟨fun h => ⟨hframe.mem h, fun a => by rw [hframe.mem h]⟩, hframe.display, hframe.stack, htimers, ?_⟩
  obtain ⟨cause, info, -, rfl⟩ | ⟨k, x, -, rfl⟩ | hdone := exec_next_cases ht
  · exact ⟨rfl, rfl, rfl, rfl, rfl, rfl⟩
  · exact ⟨rfl, rfl, rfl, rfl, rfl, rfl⟩
  · obtain ⟨hmode, hrate, hfont⟩ := hdone.sameParameters
    exact ⟨hdone.tickcnt, hmode, hrate, hfont, hdone.inputs, hdone.inputSeq⟩

/-- Settles O24: the frame of the registers. -/
theorem eachRegisterIsWrittenOnlyByItsInstructions : Obligations.EachRegisterIsWrittenOnlyByItsInstructions :=
  fun _ _ _ ht => have hframe := exec_framed ht; ⟨hframe.index, hframe.pc, hframe.regs⟩

/-! Flags -/

namespace Machine

theorem flagByte_eq_zero_or_one (c : Bool) : flagByte c = 0 ∨ flagByte c = 1 := by
  cases c
  · exact .inl rfl
  · exact .inr rfl

/-- A completed instruction that defines VF in both modes leaves a flag in it (R21). -/
theorem exec_flag {i : Instr} {s t : State} (ht : exec i s = .next t) (hs : t.status ≠ .halted)
    (hflag : (touches i).flag = true) : ∃ c, t.reg vf = flagByte c := by
  cases i <;> simp only [touches, Bool.false_eq_true] at hflag
  case addReg | subReg | shrReg | subnReg | shlReg =>
    cases ht
    exact ⟨_, State.setResultFlag_vf _ _ _⟩
  case addI =>
    cases ht
    exact ⟨_, State.setReg_reg_same _ _ _⟩
  case drw x y n =>
    cases hin : inMemory s.index.toNat n.toNat with
    | false =>
      cases (exec_drw_fault x y n s hin).symm.trans ht
      exact absurd rfl hs
    | true =>
      cases (exec_drw_next x y n s hin).symm.trans ht
      exact ⟨_, State.setReg_reg_same _ _ _⟩

end Machine

/-- Settles O25: a flag is one of two bytes, and the legacy logic operations clear it last. -/
theorem flagsAreWholeBytesZeroOrOne : Obligations.FlagsAreWholeBytesZeroOrOne := by
  intro i s t ht hs
  refine ⟨fun hflag => ?_, fun x y hi hlegacy => ?_⟩
  · obtain ⟨c, hc⟩ := exec_flag ht hs hflag
    exact hc ▸ flagByte_eq_zero_or_one c
  · obtain rfl | rfl | rfl := hi <;> cases ht <;> exact (State.setLogicResult_reg s x vf _).trans (if_pos ⟨rfl, hlegacy⟩)

/-! What a result depends on -/

namespace Machine

/-- The state with another quirk mode and another schedule of inputs: what most instructions do not see (R18, R50). -/
def State.withOutside (s : State) (q : QuirkMode) (l : List InputSample) (k : Nat) : State :=
  { s with quirkMode := q, inputs := l, inputSeq := k }

section
variable (s : State) (q : QuirkMode) (l : List InputSample) (k : Nat)

/-- Loading a run of registers does not see the outside (R169). -/
theorem State.setRegsFrom_withOutside (a : Nat) (bytes : List Byte) :
    (s.withOutside q l k).setRegsFrom a bytes = (s.setRegsFrom a bytes).withOutside q l k := by
  induction bytes generalizing s a with
  | nil => rfl
  | cons b bs ih =>
    simp only [State.setRegsFrom]
    split
    · exact ih (s.setReg _ b) (a + 1)
    · exact ih s (a + 1)

/-- A logic operation sees the mode only (R124). -/
theorem State.setLogicResult_withInputs (x : Reg) (b : Byte) :
    (s.withOutside s.quirkMode l k).setLogicResult x b = (s.setLogicResult x b).withOutside s.quirkMode l k := by
  unfold State.setLogicResult State.withOutside
  cases s.quirkMode <;> rfl

end

/-- An instruction of no quirk group does not see the mode, and one that reads no input does not see the schedule. -/
theorem exec_withOutside (i : Instr) (s : State) {q : QuirkMode} {l : List InputSample} {k : Nat}
    (hq : (touches i).quirk = true → q = s.quirkMode) (hin : (touches i).input = true → l = s.inputs ∧ k = s.inputSeq) :
    exec i (s.withOutside q l k) = mapNext (fun t => t.withOutside q l k) (exec i s) := by
  cases i
  case cls | jp | seImm | sneImm | seReg | sneReg | ldImm | addImm | ldReg | addReg | subReg | subnReg | ldI | ldVxDt
      | ldDtVx | ldStVx | addI | ldF => rfl
  case shrReg | shlReg | jpV0 =>
    cases hq rfl
    rfl
  case orReg | andReg | xorReg =>
    cases hq rfl
    exact congrArg Host.Outcome.next (s.setLogicResult_withInputs _ _ _ _)
  case rnd =>
    obtain ⟨rfl, rfl⟩ := hin rfl
    rfl
  case ret x =>
    obtain hsp | hsp := Nat.eq_zero_or_pos s.sp.val
    · rw [exec_ret_underflow x s hsp]
      exact exec_ret_underflow x (s.withOutside q l k) hsp
    · rw [exec_ret_next x s hsp]
      exact exec_ret_next x (s.withOutside q l k) hsp
  case call nnn =>
    obtain hsp | hsp := Nat.lt_or_eq_of_le (Nat.le_of_lt_succ s.sp.isLt)
    · rw [exec_call_next nnn s hsp]
      exact exec_call_next nnn (s.withOutside q l k) hsp
    · rw [exec_call_overflow nnn s hsp]
      exact exec_call_overflow nnn (s.withOutside q l k) hsp
  case skp x =>
    obtain ⟨rfl, rfl⟩ := hin rfl
    obtain hkey | hkey := Nat.lt_or_ge 15 (s.reg x).toNat
    · rw [exec_skp_fault x s hkey]
      exact exec_skp_fault x _ hkey
    · rw [exec_skp_next x s (Nat.lt_succ_of_le hkey)]
      exact exec_skp_next x _ (Nat.lt_succ_of_le hkey)
  case sknp x =>
    obtain ⟨rfl, rfl⟩ := hin rfl
    obtain hkey | hkey := Nat.lt_or_ge 15 (s.reg x).toNat
    · rw [exec_sknp_fault x s hkey]
      exact exec_sknp_fault x _ hkey
    · rw [exec_sknp_next x s (Nat.lt_succ_of_le hkey)]
      exact exec_sknp_next x _ (Nat.lt_succ_of_le hkey)
  case ldVxK x =>
    obtain ⟨rfl, rfl⟩ := hin rfl
    cases hkey : s.lowestPressed with
    | none =>
      rw [exec_ldVxK_none x s hkey]
      exact exec_ldVxK_none x _ hkey
    | some key =>
      rw [exec_ldVxK_some x s key hkey]
      exact exec_ldVxK_some x _ key hkey
  case drw x y n =>
    cases hmem : inMemory s.index.toNat n.toNat with
    | false =>
      rw [exec_drw_fault x y n s hmem]
      exact exec_drw_fault x y n _ hmem
    | true =>
      rw [exec_drw_next x y n s hmem]
      exact exec_drw_next x y n _ hmem
  case ldB x =>
    cases hmem : inMemory s.index.toNat 3 with
    | false =>
      rw [exec_ldB_fault x s hmem]
      exact exec_ldB_fault x _ hmem
    | true =>
      rw [exec_ldB_next x s hmem]
      exact exec_ldB_next x _ hmem
  case storeRegs x =>
    cases hq rfl
    cases hmem : inMemory s.index.toNat (x.val + 1) with
    | false =>
      rw [exec_storeRegs_fault x s hmem]
      exact exec_storeRegs_fault x _ hmem
    | true =>
      rw [exec_storeRegs_next x s hmem]
      exact exec_storeRegs_next x _ hmem
  case loadRegs x =>
    cases hq rfl
    cases hmem : inMemory s.index.toNat (x.val + 1) with
    | false =>
      rw [exec_loadRegs_fault x s hmem]
      exact exec_loadRegs_fault x _ hmem
    | true =>
      rw [exec_loadRegs_next x s hmem, exec_loadRegs_next x (s.withOutside s.quirkMode l k) hmem]
      exact congrArg (fun t => Host.Outcome.next (t.setIndex (s.indexAfterBulk x))) (s.setRegsFrom_withOutside _ _ _ _ _)

/-- No instruction writes the mode or the schedule. -/
theorem exec_keepsOutside {i : Instr} {s t : State} (ht : exec i s = .next t) :
    t.quirkMode = s.quirkMode ∧ t.inputs = s.inputs ∧ t.inputSeq = s.inputSeq := by
  obtain ⟨-, -, -, -, -, hmode, -, -, hinputs, hseq⟩ := eachSpaceIsWrittenOnlyByItsInstructions i s t ht
  exact ⟨hmode, hinputs, hseq⟩

/-- Outside the quirk groups the mode only passes through (R18). -/
theorem exec_withMode (i : Instr) (s : State) (q : QuirkMode) (h : (touches i).quirk = false) :
    exec i { s with quirkMode := q } = mapNext (fun t => { t with quirkMode := q }) (exec i s) := by
  obtain ⟨t, ht, -⟩ := exec_cases i s
  obtain ⟨-, hinputs, hseq⟩ := exec_keepsOutside ht
  refine (exec_withOutside i s (q := q) (fun hq => absurd (hq.symm.trans h) nofun) fun _ => ⟨rfl, rfl⟩).trans ?_
  rw [ht, ← hinputs, ← hseq]
  rfl

/-- Outside the key and random instructions the schedule only passes through (R50). -/
theorem exec_withInputs (i : Instr) (s : State) (l : List InputSample) (k : Nat) (h : (touches i).input = false) :
    exec i { s with inputs := l, inputSeq := k } = mapNext (fun t => { t with inputs := l, inputSeq := k }) (exec i s) := by
  obtain ⟨t, ht, -⟩ := exec_cases i s
  obtain ⟨hmode, -, -⟩ := exec_keepsOutside ht
  refine (exec_withOutside i s (fun _ => rfl) fun hin => absurd (hin.symm.trans h) nofun).trans ?_
  rw [ht, ← hmode]
  rfl

/-- What tells the quirk modes apart in one step: the registers, `I` and `pc`. -/
def observed : Result → Option (Vector Byte 16 × Word × Word)
  | .next t => some (t.v, t.index, t.pc)
  | .fault _ => none
  | .refused _ => none

/-- A legacy state on which `V0 to Vx`, `V[x]`, `V[y]` and VF differ where the quirk groups look. -/
def quirkSample : State :=
  { State.resetWith .legacy 0 (Vector.replicate 80 0) with v := #v[0, 1, 2, 0, 0, 0, 0, 0, 0, 0, 0, 0, 0, 0, 0, 1] }

/-- Each of the five groups does something else in modern mode on the sample, with `x = 1` and `y = 2`. -/
theorem quirkGroups_differ : ∀ f ∈ [Instr.orReg, Instr.andReg, Instr.xorReg, Instr.shrReg, Instr.shlReg,
      fun x _ => .storeRegs x, fun x _ => .loadRegs x, fun x _ => .jpV0 (BitVec.ofNat 12 (x.val * 256)) x],
    observed (mapNext (fun t => { t with quirkMode := .legacy }) (exec (f 1 2) { quirkSample with quirkMode := .modern })) ≠
      observed (exec (f 1 2) quirkSample) := by
  decide

end Machine

/-- Settles O21: no other instruction sees the mode, a sample state tells the modes apart in each group, and the shifts and
the offset jump take the mode's operand. -/
theorem quirkModeChangesOnlyItsFiveGroups : Obligations.QuirkModeChangesOnlyItsFiveGroups := by
  refine ⟨fun i s q hquirk => ?_, fun f hf => ⟨1, 2, quirkSample, rfl, fun h => ?_⟩, fun x y s t hx ht => ?_,
    fun x y s t hx ht => ?_, fun nnn x s t ht => ?_⟩
  · exact exec_withMode i s q hquirk
  · exact quirkGroups_differ f hf (congrArg observed h)
  · cases ht
    rw [s.setResultFlag_result _ hx]
    exact (shrFlag_toNat _).1
  · cases ht
    rw [s.setResultFlag_result _ hx]
    exact (shlFlag_toNat _).1
  · cases ht
    exact offsetTarget_toNat nnn (s.jumpOffset x)

/-- Settles O22: no other instruction sees the schedule. -/
theorem inputsReachOnlyKeyAndRandomInstructions : Obligations.InputsReachOnlyKeyAndRandomInstructions :=
  exec_withInputs

end Sys2Proof
end

section
/-! PROOFS. The canonical memory and fetch coherence (20_memory.md sections 2 and 4), and the delay formula
(70_reset_and_hazards.md section 3). -/

namespace Sys2Proof

namespace Machine

/-! The canonical form (log 6) -/

/-- In a list of rising addresses, a listed cell is the one found. -/
theorem findCell_of_mem {b : Byte} {cells : List Host.Cell} {c : Host.Cell}
    (hsorted : cells.Pairwise fun c d => c.1 < d.1) (hc : c ∈ cells) : findCell b cells c.1 = c.2 := by
  induction cells with
  | nil => cases hc
  | cons d rest ih =>
    obtain ⟨hfirst, hrest⟩ := List.pairwise_cons.1 hsorted
    obtain rfl | hc := List.mem_cons.1 hc
    · simp [findCell]
    · rw [findCell, if_neg (Nat.ne_of_lt (hfirst c hc)), ih hrest hc]

/-- The cells of a canonical memory are the bytes that differ from reset. -/
theorem Memory.mem_cells_iff {m : Memory} (h : m.wf) (c : Host.Cell) :
    c ∈ m.cells ↔ m.read c.1 = c.2 ∧ c.2 ≠ m.background c.1 := by
  obtain ⟨hsorted, hcells⟩ := h
  refine ⟨fun hc => ⟨findCell_of_mem hsorted hc, (hcells c hc).2⟩, fun ⟨hread, hne⟩ => ?_⟩
  by_contra hc
  have hunlisted : ∀ d ∈ m.cells, d.1 ≠ c.1 := by
    intro d hd haddr
    have hd2 : d.2 = c.2 := (findCell_of_mem hsorted hd).symm.trans (haddr ▸ hread)
    exact hc (Prod.ext haddr hd2 ▸ hd)
  exact hne (hread.symm.trans (m.read_of_notMem c.1 hunlisted))

/-- Above the address space a canonical memory lists nothing. -/
theorem Memory.read_above {m : Memory} (h : m.wf) {a : Nat} (ha : 0xFFF < a) : m.read a = m.background a :=
  m.read_of_notMem a fun c hc => Nat.ne_of_lt (Nat.lt_of_le_of_lt (h.2 c hc).1 ha)

/-- Lists of rising addresses with the same cells are equal. -/
theorem cells_eq_of_mem_iff {l l' : List Host.Cell} (h : l.Pairwise fun c d => c.1 < d.1)
    (h' : l'.Pairwise fun c d => c.1 < d.1) (hmem : ∀ c, c ∈ l ↔ c ∈ l') : l = l' := by
  have : Std.Antisymm fun c d : Host.Cell => c.1 < d.1 := ⟨fun _ _ hlt hgt => absurd hgt (Nat.lt_asymm hlt)⟩
  have : Std.Irrefl fun c d : Host.Cell => c.1 < d.1 := ⟨fun _ => Nat.lt_irrefl _⟩
  exact h.eq_of_mem_iff h' hmem

end Machine

open Machine

/-- Settles O52: the cells are the bytes that differ from reset, in the order of their addresses. -/
theorem canonicalMemoriesThatReadAlikeAreEqual : Obligations.CanonicalMemoriesThatReadAlikeAreEqual := by
  intro m n hm hn hfont hread
  have hbackground : ∀ a, m.background a = n.background a := fun a => by rw [Memory.background, hfont]; rfl
  have hread' : ∀ a, m.read a = n.read a := fun a => by
    obtain ha | ha := Nat.lt_or_ge 0xFFF a
    · rw [Memory.read_above hm ha, Memory.read_above hn ha, hbackground]
    · exact hread a ha
  have hcells : m.cells = n.cells := cells_eq_of_mem_iff hm.1 hn.1 fun c => by
    rw [Memory.mem_cells_iff hm, Memory.mem_cells_iff hn, hread', hbackground]
  obtain ⟨font, cells⟩ := m
  cases hfont
  cases hcells
  rfl

/-! Fetch coherence -/

namespace Machine

/-- A store in range completes: it writes its bytes from `I`, and leaves `pc` and STATUS (R167, R168). -/
theorem exec_store {x : Reg} {s : State} {i : Instr} {bytes : List Byte}
    (hi : (i, bytes) ∈ [(Instr.ldB x, decimalDigits (s.reg x)), (.storeRegs x, s.regsUpTo x)])
    (hin : s.index.toNat + bytes.length ≤ 0x1000) :
    ∃ u, exec i s = .next u ∧ u.mem = s.mem.writeBytes s.index.toNat bytes ∧ u.pc = s.pc ∧ u.status = s.status := by
  have hmem : inMemory s.index.toNat bytes.length = true := (inMemory_iff _ _).2 (.inr hin)
  simp only [List.mem_cons, List.not_mem_nil, or_false, Prod.mk.injEq] at hi
  obtain ⟨rfl, rfl⟩ | ⟨rfl, rfl⟩ := hi
  · exact ⟨_, exec_ldB_next x s hmem, rfl, rfl, rfl⟩
  · rw [State.regsUpTo_length] at hmem
    exact ⟨_, exec_storeRegs_next x s hmem, rfl, rfl, rfl⟩

/-- What a step does that runs a store in range: memory holds the bytes, `pc` is past the instruction and the engine runs. -/
theorem step_store {x : Reg} {s : State} {i : Instr} {bytes : List Byte}
    (hi : (i, bytes) ∈ [(Instr.ldB x, decimalDigits (s.reg x)), (.storeRegs x, s.regsUpTo x)])
    (hrun : s.status = .run) (hreq : s.Requested) (hpc : LegalFetch s.pc) (hd : decodeWord s.fetchWord = .ok i)
    (hin : s.index.toNat + bytes.length ≤ 0x1000) :
    ∃ t, step s = .next t ∧ t.status = .run ∧ t.pc = s.pc + 2 ∧ t.mem = s.mem.writeBytes s.index.toNat bytes := by
  obtain ⟨u, hu, hmem, hupc, hstatus⟩ := exec_store (s := s.advance) hi hin
  refine ⟨u.timerHook.consumeInput, ?_, ?_, ?_, ?_⟩
  · rw [step_of_decodeWord_ok hrun hreq hpc hd, hu, mapNext, State.retire_of_run (hstatus.trans hrun)]
  · exact (State.timerHook_status u).trans (hstatus.trans hrun)
  · exact (State.timerHook_pc u).trans hupc
  · exact (State.timerHook_mem u).trans hmem

/-- A word inside a store is the word of the stored bytes (R57, R59). -/
theorem State.fetchWord_of_store {s t : State} {base : Nat} {bytes : List Byte} (hmem : t.mem = s.mem.writeBytes base bytes)
    (hbase : base ≤ t.pc.toNat) (hlen : t.pc.toNat + 1 < base + bytes.length) :
    t.fetchWord = wordOfBytes (bytes.getD (t.pc.toNat - base) 0) (bytes.getD (t.pc.toNat + 1 - base) 0) := by
  obtain ⟨j, hj⟩ := Nat.exists_eq_add_of_le hbase
  have hword := s.mem.word_writeBytes_at base (bytes := bytes) (j := j) (by omega)
  rw [State.fetchWord, hmem, hj, hword]
  congr 2 <;> omega

end Machine

/-- Settles O51: the store completes, the next word is of its bytes, and the next step decodes that word. -/
theorem storesAreSeenByTheNextFetch : Obligations.StoresAreSeenByTheNextFetch := by
  intro x s i bytes hi hrun hreq hpc hd hin hfirst hlast
  obtain ⟨t, ht, htrun, htpc, htmem⟩ := step_store hi hrun hreq hpc hd hin
  have hpcNat : t.pc.toNat = s.pc.toNat + 2 := htpc ▸ (State.advance_afterFetch hpc).2
  obtain ⟨heven, hlow, hhigh⟩ := hpc
  have hlegal : LegalFetch t.pc := ⟨by omega, by omega, by omega⟩
  have hword := State.fetchWord_of_store htmem (by omega) (by omega)
  rw [hpcNat] at hword
  refine ⟨t, ht, htrun, hpcNat, hword, fun htreq => ⟨fun j hj => ?_, fun hill => ?_⟩⟩
  · exact stepRunsTheDecodedInstruction t j htrun htreq hlegal (decode_pair_iff.2 hj)
  · exact (illegalWordsRaiseUnknownInstruction t htrun htreq hlegal).1 hill

/-! The delay -/

namespace Machine

/-- The hooks a delay takes from a value in DT and a phase of the prescaler (70_reset_and_hazards.md section 3). -/
def State.delay (s : State) : Nat := (s.dt.toNat - 1) * s.tickDiv + (s.tickDiv - s.tickcnt)

section
variable {s t : State}

/-- A hook takes one from the delay, and DT is 0 after the last. -/
theorem State.delay_timerHook (hdt : 1 ≤ s.dt.toNat) (hphase : s.tickcnt < s.tickDiv) :
    s.timerHook.dt.toNat = 0 ∧ s.delay = 1 ∨ 1 ≤ s.timerHook.dt.toNat ∧ s.delay = s.timerHook.delay + 1 := by
  obtain hdiv | hdiv := Nat.lt_or_ge (s.tickcnt + 1) s.tickDiv
  · have hdelay : s.timerHook.delay = (s.dt.toNat - 1) * s.tickDiv + (s.tickDiv - (s.tickcnt + 1)) := by
      rw [State.timerHook_of_lt hdiv]
      rfl
    refine .inr ⟨by rw [State.timerHook_of_lt hdiv]; exact hdt, ?_⟩
    rw [hdelay, State.delay]
    omega
  · have hdown : s.timerHook.dt.toNat = s.dt.toNat - 1 := by
      rw [State.timerHook_of_le hdiv]
      exact timerDown_toNat s.dt
    have hdelay : s.timerHook.delay = (s.dt.toNat - 1 - 1) * s.tickDiv + s.tickDiv := by
      rw [State.delay, hdown, State.timerHook_tickDiv, State.timerHook_tickcnt, if_pos hdiv, Nat.sub_zero]
    rw [hdown, hdelay, State.delay]
    obtain hone | hmore : s.dt.toNat - 1 = 0 ∨ 1 ≤ s.dt.toNat - 1 := by omega
    · refine .inl ⟨hone, ?_⟩
      rw [hone, Nat.zero_mul]
      omega
    · obtain ⟨v, hv⟩ := Nat.exists_eq_add_of_le' hmore
      refine .inr ⟨hmore, ?_⟩
      rw [hv, Nat.add_sub_cancel, Nat.succ_mul]
      omega

/-- DT is 0 after exactly the delay's hooks. -/
theorem iterate_timerHook_dt (k : Nat) : ∀ s : State, 1 ≤ s.dt.toNat → s.tickcnt < s.tickDiv → s.delay = k →
    (State.timerHook^[k] s).dt = 0 ∧ ∀ j, j < k → (State.timerHook^[j] s).dt ≠ 0 := by
  induction k with
  | zero =>
    intro s _ hphase hk
    rw [State.delay] at hk
    omega
  | succ k ih =>
    intro s hdt hphase hk
    have hne : s.dt ≠ 0 := by
      intro h
      simp [h] at hdt
    obtain ⟨hzero, hone⟩ | ⟨hdt', hdelay⟩ := State.delay_timerHook hdt hphase
    · obtain rfl : k = 0 := by omega
      refine ⟨BitVec.eq_of_toNat_eq hzero, fun j hj => ?_⟩
      obtain rfl : j = 0 := by omega
      exact hne
    · have hphase' : s.timerHook.tickcnt < s.timerHook.tickDiv := by
        rw [State.timerHook_tickDiv]
        exact s.timerHook_tickcnt_lt
      obtain ⟨hlast, hbefore⟩ := ih s.timerHook hdt' hphase' (by omega)
      refine ⟨hlast, fun j hj => ?_⟩
      cases j with
      | zero => exact hne
      | succ j => exact hbefore j (by omega)

/-- The delay lies in the last tick of `v`. -/
theorem State.delay_bounds (hdt : 1 ≤ s.dt.toNat) (hphase : s.tickcnt < s.tickDiv) :
    (s.dt.toNat - 1) * s.tickDiv + 1 ≤ s.delay ∧ s.delay ≤ s.dt.toNat * s.tickDiv := by
  obtain ⟨v, hv⟩ := Nat.exists_eq_add_of_le' hdt
  rw [State.delay, hv, Nat.add_sub_cancel, Nat.succ_mul]
  omega

/-- Two states whose delay timers run alike: DT, the phase and the rate. -/
def State.DelaysAlike (s t : State) : Prop := t.dt = s.dt ∧ t.tickcnt = s.tickcnt ∧ t.rateOver60 = s.rateOver60

theorem State.DelaysAlike.timerHook (h : s.DelaysAlike t) : s.timerHook.DelaysAlike t.timerHook := by
  obtain ⟨hdt, htick, hrate⟩ := h
  have hdiv : t.tickDiv = s.tickDiv := by rw [State.tickDiv, State.instructionRate, hrate]; rfl
  have hdown (u : State) : u.timerHook.dt = if u.tickDiv ≤ u.tickcnt + 1 then timerDown u.dt else u.dt := by
    obtain ⟨hle, h⟩ | ⟨hlt, h⟩ := u.timerHook_cases <;> rw [h]
    · rw [if_pos hle]
    · rw [if_neg (Nat.not_le.2 hlt)]
  refine ⟨?_, ?_, by simpa using hrate⟩
  · rw [hdown, hdown, hdiv, htick, hdt]
  · rw [State.timerHook_tickcnt, State.timerHook_tickcnt, hdiv, htick]

theorem State.DelaysAlike.trans {u : State} (h : s.DelaysAlike t) (h' : t.DelaysAlike u) : s.DelaysAlike u := by
  obtain ⟨hdt, htick, hrate⟩ := h
  obtain ⟨hdt', htick', hrate'⟩ := h'
  exact ⟨hdt'.trans hdt, htick'.trans htick, hrate'.trans hrate⟩

/-- A counted step that writes no DT is a hook for the delay (R199, R219). -/
theorem State.CountsKeepingDt.step (h : s.CountsKeepingDt) : ∃ t, step s = .next t ∧ s.timerHook.DelaysAlike t := by
  obtain ⟨⟨hreq, hs, hnotHeld, t, ht, hrun⟩, hkeep⟩ := h
  refine ⟨t, ht, ?_⟩
  obtain ⟨u, rfl, ⟨hidle, -⟩ | ⟨-, hto⟩⟩ := step_next_cases ht
  · exact absurd hreq hidle
  cases hto with
  | halted hh => exact absurd hh hs
  | poll hw =>
    have hkey : s.keyReleased s.kwKey = true := Bool.of_not_eq_false fun hheld => hnotHeld ⟨hw, hheld⟩
    rw [s.pollRelease_of_released hkey]
    exact State.DelaysAlike.timerHook ⟨rfl, rfl, rfl⟩
  | badPc => cases hrun
  | unknown => cases hrun
  | run hsrun hp i v hd hv =>
    obtain ⟨cause, info, -, hret⟩ | ⟨k, x, hret⟩ | ⟨hdone, -, hret⟩ := retire_exec_cases hsrun hv <;>
      rw [hret] at hrun ⊢
    · cases hrun
    · cases hrun
    · have hdt : v.dt = s.dt := (exec_framed hv).dt fun x hx => hkeep hsrun x (hx ▸ hd)
      exact State.DelaysAlike.timerHook ⟨hdt, hdone.tickcnt, hdone.rateOver60⟩

/-- The step that executes `LD DT, Vx` is a hook for the delay of `V[x]` (R163, R219). -/
theorem step_ldDtVx {x : Reg} (hrun : s.status = .run) (hreq : s.Requested) (hpc : LegalFetch s.pc)
    (hd : decodeWord s.fetchWord = .ok (.ldDtVx x)) :
    ∃ t, step s = .next t ∧ (s.setDt (s.reg x)).timerHook.DelaysAlike t := by
  have hretire : (s.advance.setDt (s.reg x)).retire = (s.advance.setDt (s.reg x)).timerHook := State.retire_of_run hrun
  refine ⟨(s.advance.setDt (s.reg x)).timerHook.consumeInput, ?_, State.DelaysAlike.timerHook ⟨rfl, rfl, rfl⟩⟩
  rw [step_of_decodeWord_ok hrun hreq hpc hd, ← hretire]
  rfl

/-- From the step that executes `LD DT, Vx` on, as long as every step counts and writes no DT, `j` steps are `j` hooks. -/
theorem run_delaysAlike {x : Reg} (hrun : s.status = .run) (hreq : s.Requested) (hpc : LegalFetch s.pc)
    (hd : decodeWord s.fetchWord = .ok (.ldDtVx x)) (j : Nat)
    (hcounts : ∀ l, 1 ≤ l → l < j + 1 → ∃ u : State, Host.Core.run core l s = .next u ∧ u.CountsKeepingDt) :
    ∃ t : State, Host.Core.run core (j + 1) s = .next t ∧ (State.timerHook^[j + 1] (s.setDt (s.reg x))).DelaysAlike t := by
  induction j with
  | zero =>
    obtain ⟨t, ht, halike⟩ := step_ldDtVx hrun hreq hpc hd
    exact ⟨t, (run_succ 0 ht).trans (run_zero t), halike⟩
  | succ j ih =>
    obtain ⟨u, hu, halike⟩ := ih fun l hl hlt => hcounts l hl (by omega)
    obtain ⟨u', hu', hcount⟩ := hcounts (j + 1) (by omega) (by omega)
    cases hu.symm.trans hu'
    obtain ⟨t, ht, hstep⟩ := hcount.step
    refine ⟨t, (run_succ_last hu).trans ht, ?_⟩
    rw [Function.iterate_succ_apply']
    exact halike.timerHook.trans hstep

end

end Machine

/-- Settles O54: a hook takes one from the delay, and so does a counted step that writes no DT. -/
theorem delayRunsOutAfterExactlyTheFormula : Obligations.DelayRunsOutAfterExactlyTheFormula := by
  refine ⟨fun s hdt hphase => ?_, fun s x j hrun hreq hpc hd hv hphase hj hle hcounts => ?_⟩
  · obtain ⟨hlast, hbefore⟩ := iterate_timerHook_dt _ s hdt hphase rfl
    exact ⟨hlast, hbefore, State.delay_bounds hdt hphase⟩
  · obtain ⟨hlast, hbefore⟩ := iterate_timerHook_dt _ (s.setDt (s.reg x)) hv hphase rfl
    obtain ⟨j, rfl⟩ := Nat.exists_eq_add_of_le' hj
    obtain ⟨t, ht, hdt, -⟩ := run_delaysAlike hrun hreq hpc hd j hcounts
    refine ⟨t, ht, ?_⟩
    rw [hdt]
    refine ⟨fun hzero => ?_, fun hk => hk ▸ hlast⟩
    by_contra hne
    exact hbefore (j + 1) (Nat.lt_of_le_of_ne hle hne) hzero

end Sys2Proof
end
